-- ==== Sys2Proof/Word.lean ====
section
/-! DEFINITION. The widths of the block (spec/00_scope.md R5) and the plainest arithmetic on them. Every value is unsigned (R7); bit 0 is the least significant (R6). -/

namespace Sys2Proof

/-- One cell's value, `CELL_W` = 8 bits (R5). -/
abbrev Byte := BitVec 8

/-- A pair's value, and the read-data output: `PAIR_W` = `RDATA_W` = 16 bits (R5). -/
abbrev Word16 := BitVec 16

/-- A flag set as a 4-bit value, `FLAGS_W` = 4 bits (R5, R39). -/
abbrev Flags4 := BitVec 4

/-- A command word, `CMD_W` = 24 bits (R5, R33). -/
abbrev Cmd := BitVec 24

end Sys2Proof
end

