-- ==== Sys2Proof/Syntax.lean ====
section
/-! DEFINITION. The names of the cells and pairs, the commands (one constructor per row of spec/opcode_table.json), and what the input ports carry in one step. -/

namespace Sys2Proof

/-- The eight cells, in the order of spec/10_state.md R11. -/
inductive Reg where
  | a | b | c | d | e | f | h | l
  deriving DecidableEq, Repr

/-- The four pair views, in the order of spec/10_state.md R13. -/
inductive Pair where
  | af | bc | de | hl
  deriving DecidableEq, Repr

/-- The commands: the result type of the decode procedure, spec/30_encoding.md R42. -/
inductive Instr where
  /-- NOP, the idle step (R48). -/
  | nop
  /-- RD8 r: read one cell (R49). -/
  | rd8 (r : Reg)
  /-- WR8 r, v: write one cell (R50). -/
  | wr8 (r : Reg) (v : Byte)
  /-- RD16 p: read one pair (R51). -/
  | rd16 (p : Pair)
  /-- WR16 p, v: write one pair (R52). -/
  | wr16 (p : Pair) (v : Word16)
  /-- ENC f: pack a flag set into a byte (R60). -/
  | enc (f : Flags4)
  /-- DEC b: unpack a byte into a flag set (R61). -/
  | dec (b : Byte)
  /-- A reserved command word (R41, R53). DESIGN CHOICE (log entry 4), safe: it carries the word, where R42's
  `Reserved` carries nothing, so that every reserved word has a term of its own; no meaning reads it. -/
  | reserved (w : Cmd)
  deriving DecidableEq, Repr

/-- What the two input ports carry in one step: the reset input and the command word (R33). -/
structure PortInput where
  rst : Bool
  cmd : Cmd
  deriving DecidableEq, Repr

end Sys2Proof
end

