-- ==== Sys2Proof/WellFormed.lean ====
section
/-! DEFINITION. Well-formed commands. Every selector value of RD8 and WR8 names a cell and every pair selector names a pair (spec/20_memory.md R25), and operands are typed by their widths, so the one check left is that the word a `reserved` command carries is reserved, by the four clauses of spec/30_encoding.md R41. -/

namespace Sys2Proof

/-- R41 clause 1: `op = 111`. -/
def reservedByOp (w : Cmd) : Bool := w.extractLsb' 0 3 == 0b111#3

/-- R41 clause 2: `rsv = cmd[7:6]` is not `00`. -/
def reservedByRsv (w : Cmd) : Bool := w.extractLsb' 6 2 != 0b00#2

/-- R41 clause 3: NOP, ENC or DEC with `sel` not `000`. -/
def reservedBySel (w : Cmd) : Bool :=
  (w.extractLsb' 0 3 == 0b000#3 || w.extractLsb' 0 3 == 0b101#3 || w.extractLsb' 0 3 == 0b110#3)
    && w.extractLsb' 3 3 != 0b000#3

/-- R41 clause 4: RD16 or WR16 with `sel[2] = 1`. -/
def reservedBySelHigh (w : Cmd) : Bool :=
  (w.extractLsb' 0 3 == 0b011#3 || w.extractLsb' 0 3 == 0b100#3) && w.getLsbD 5

/-- R41: a command word is reserved when any of the four clauses holds. -/
def isReservedWord (w : Cmd) : Bool :=
  reservedByOp w || reservedByRsv w || reservedBySel w || reservedBySelHigh w

/-- A command is well-formed unless it is a `reserved` command that carries a word which is not reserved. -/
def Instr.wellFormed : Instr → Bool
  | .nop => true
  | .rd8 _ => true
  | .wr8 _ _ => true
  | .rd16 _ => true
  | .wr16 _ _ => true
  | .enc _ => true
  | .dec _ => true
  | .reserved w => isReservedWord w

end Sys2Proof
end

