-- ==== Sys2Proof/Decode.lean ====
section
/-! DEFINITION. The command word's fields, the decode procedure and the encoder (spec/30_encoding.md R33 to R43, R46). Decoding is total: a word that selects no operation decodes to `reserved`, by name. -/

namespace Sys2Proof

/-- `op = cmd[2:0]` (R33). -/
def cmdOp (w : Cmd) : BitVec 3 := w.extractLsb' 0 3

/-- `sel = cmd[5:3]` (R33). -/
def cmdSel (w : Cmd) : BitVec 3 := w.extractLsb' 3 3

/-- `rsv = cmd[7:6]` (R33). -/
def cmdRsv (w : Cmd) : BitVec 2 := w.extractLsb' 6 2

/-- `wdata = cmd[23:8]` (R33). -/
def cmdData (w : Cmd) : Word16 := w.extractLsb' 8 16

/-- `Reg(sel)`: the cell a selector names (R35). -/
def regOfSel (n : BitVec 3) : Reg :=
  match n with
  | 0b000#3 => .a
  | 0b001#3 => .b
  | 0b010#3 => .c
  | 0b011#3 => .d
  | 0b100#3 => .e
  | 0b101#3 => .f
  | 0b110#3 => .h
  | _ => .l

/-- `sel(r)`: the selector of a cell (R35). -/
def selOfReg : Reg → BitVec 3
  | .a => 0b000#3
  | .b => 0b001#3
  | .c => 0b010#3
  | .d => 0b011#3
  | .e => 0b100#3
  | .f => 0b101#3
  | .h => 0b110#3
  | .l => 0b111#3

/-- `Pair(sel[1:0])`: the pair a selector names (R36). -/
def pairOfSel (n : BitVec 2) : Pair :=
  match n with
  | 0b00#2 => .af
  | 0b01#2 => .bc
  | 0b10#2 => .de
  | _ => .hl

/-- `sel(p)`: the selector of a pair, its bit 2 clear (R36). -/
def selOfPair : Pair → BitVec 3
  | .af => 0b000#3
  | .bc => 0b001#3
  | .de => 0b010#3
  | .hl => 0b011#3

/-- The pair selector `sel[1:0] = cmd[4:3]` (R36). -/
def cmdPairSel (w : Cmd) : BitVec 2 := (cmdSel w).extractLsb' 0 2

/-- Whether `sel[2] = cmd[5]` is 0, as RD16 and WR16 require (R36). -/
def cmdPairSelLegal (w : Cmd) : Bool := !(cmdSel w).getLsbD 2

/-- The 8-bit operand of WR8 and DEC: `wdata[7:0]` (R38). -/
def byteOperand (w : Cmd) : Byte := (cmdData w).extractLsb' 0 8

/-- The 16-bit operand of WR16: `wdata[15:0]` (R38). -/
def wordOperand (w : Cmd) : Word16 := cmdData w

/-- The flags4 operand of ENC: `wdata[3:0]` (R38, R39). -/
def flagsOperand (w : Cmd) : Flags4 := (cmdData w).extractLsb' 0 4

/-- The decode procedure (R42), total on every 24-bit word. -/
def decode (w : Cmd) : Instr :=
  if cmdRsv w ≠ 0b00#2 then .reserved w
  else
    match cmdOp w with
    | 0b000#3 => if cmdSel w = 0b000#3 then .nop else .reserved w
    | 0b001#3 => .rd8 (regOfSel (cmdSel w))
    | 0b010#3 => .wr8 (regOfSel (cmdSel w)) (byteOperand w)
    | 0b011#3 => if cmdPairSelLegal w then .rd16 (pairOfSel (cmdPairSel w)) else .reserved w
    | 0b100#3 => if cmdPairSelLegal w then .wr16 (pairOfSel (cmdPairSel w)) (wordOperand w) else .reserved w
    | 0b101#3 => if cmdSel w = 0b000#3 then .enc (flagsOperand w) else .reserved w
    | 0b110#3 => if cmdSel w = 0b000#3 then .dec (byteOperand w) else .reserved w
    | _ => .reserved w

/-- The one command format: `wdata`, `rsv = 00`, `sel`, `op`, from bit 23 down (R33). -/
def cmdWord (data : Word16) (sel op : BitVec 3) : Cmd := data ++ 0b00#2 ++ sel ++ op

/-- The command word of each command (R46), unused `wdata` bits written as 0; a reserved word is itself. -/
def encode : Instr → Cmd
  | .nop => cmdWord 0x0000#16 0b000#3 0b000#3
  | .rd8 r => cmdWord 0x0000#16 (selOfReg r) 0b001#3
  | .wr8 r v => cmdWord (v.setWidth 16) (selOfReg r) 0b010#3
  | .rd16 p => cmdWord 0x0000#16 (selOfPair p) 0b011#3
  | .wr16 p v => cmdWord v (selOfPair p) 0b100#3
  | .enc f => cmdWord (f.setWidth 16) 0b000#3 0b101#3
  | .dec b => cmdWord (b.setWidth 16) 0b000#3 0b110#3
  | .reserved w => w

/-- The command word whose bits are `w`'s lowest `nbits` bits, every bit above them 0. There is no memory and so no
byte order of a command (spec/20_memory.md R23): the port carries the 24 bits at once. -/
def cmdOfTableWord (nbits w : Nat) : Cmd := BitVec.ofNat 24 (w % 2 ^ nbits)

/-- What the decoder reads from an instruction whose bits are `w`; none for more than 24 bits, since there is no longer command (R43). -/
def decodeTableWord (nbits w : Nat) : Option Instr :=
  if nbits ≤ 24 then some (decode (cmdOfTableWord nbits w)) else none

end Sys2Proof
end

