-- ==== Sys2Proof/Config.lean ====
section
/-! DEFINITION. What an implementation fixes. The block's one configurable item is `RESET_IMAGE` (spec/00_scope.md R2, R5): the model takes it as the field `resetImage` of State, which may hold any value, and as an argument of `State.resetWith`; here stands only the spec's default. No value of this hardware is left free by the spec, so there is no opaque constant. -/

namespace Sys2Proof

/-- `RESET_IMAGE`'s default: 0x00 in every cell (spec/10_state.md R21). -/
def Config.defaultResetImage : Reg → Byte := fun _ => 0x00#8

end Sys2Proof
end

