-- ==== Sys2Proof/Machine/State.lean ====
section
/-! DEFINITION. The machine's state, the reasons a step can stop, and the state after reset. -/

namespace Sys2Proof.Machine

/-- The cell array, the block's whole architectural state: eight 8-bit values, every value legal in every cell
(spec/10_state.md R11, R12, R19). F holds raw bits (R17). -/
structure Cells where
  a : Byte
  b : Byte
  c : Byte
  d : Byte
  e : Byte
  f : Byte
  h : Byte
  l : Byte
  deriving DecidableEq, Repr

/-- The eight cells with the value `v r` in cell `r`. -/
def Cells.fill (v : Reg → Byte) : Cells :=
  ⟨v .a, v .b, v .c, v .d, v .e, v .f, v .h, v .l⟩

/-- Reasons to stop with a fault: none. Every command, reserved words included, completes in its step and a model's
step "returns a next state for every input and never a fault" (spec/60_exceptions.md R64). No definition raises one. -/
inductive Fault where
  deriving DecidableEq, Repr

/-- Reasons to refuse. -/
inductive Refusal where
  /-- Raised only by an arm of `exec` whose instruction has no meaning yet; no arm raises it now. Safe: the run stops. -/
  | notModelled (mnemonic : String)
  deriving DecidableEq, Repr

/-- The cell array beside the block's ports and its one parameter. `cells` is all the block holds (R19); the other
three are the model's own fields, because a step here is a function of State alone. -/
structure State where
  /-- The cell array. -/
  cells : Cells
  /-- The read-data output of the step just taken (R33, R40, R47). Record of an output, read by no step (R19;
  log entry 2). -/
  rdata : Word16
  /-- The parameter `RESET_IMAGE` (R5, R21), written by no step (log entry 3). -/
  resetImage : Cells
  /-- What the caller presents on `rst` and `cmd` in the steps to come, oldest first (R33, R77; log entry 1). -/
  inputs : List PortInput
  deriving DecidableEq, Repr

/-- How a step ends. -/
abbrev Result := Host.Outcome State Fault Refusal

/-- The state right after a reset step of a block whose `RESET_IMAGE` is `image`: every cell at its reset value
(R21, R71) and the output of a reset step, 0x0000 (R72). Nothing is presented on the ports yet (DESIGN CHOICE, log
entry 1, safe). -/
def State.resetWith (image : Cells) : State :=
  { cells := image, rdata := 0x0000#16, resetImage := image, inputs := [] }

/-- The state right after reset, with the spec's default `RESET_IMAGE` (R21, R73). -/
def State.reset : State := State.resetWith (Cells.fill Config.defaultResetImage)

end Sys2Proof.Machine
end

