-- ==== Sys2Proof/Machine/Flags.lean ====
section
/-! DEFINITION. The flags codec (spec/41_flags_codec.md R57 to R59) and the semantic flag set, which is a value and never state (spec/10_state.md R18). -/

namespace Sys2Proof.Machine

/-- The four flags (R18, R39). -/
structure FlagSet where
  zero : Bool
  subtract : Bool
  halfCarry : Bool
  carry : Bool
  deriving DecidableEq, Repr

/-- A flag set as flags4: bit 3 zero, bit 2 subtract, bit 1 half-carry, bit 0 carry (R39). -/
def flags4OfSet (s : FlagSet) : Flags4 :=
  BitVec.ofBool s.zero ++ BitVec.ofBool s.subtract ++ BitVec.ofBool s.halfCarry ++ BitVec.ofBool s.carry

/-- The flag set a flags4 value stands for (R39). -/
def setOfFlags4 (v : Flags4) : FlagSet :=
  { zero := v.getLsbD 3, subtract := v.getLsbD 2, halfCarry := v.getLsbD 1, carry := v.getLsbD 0 }

/-- `FlagsEncode`: the four flags in bits 7-4, bits 3-0 zero (R58). -/
def flagsEncode (v : Flags4) : Byte := v ++ 0b0000#4

/-- `FlagsDecode`: bits 7-4, bits 3-0 ignored (R59). -/
def flagsDecode (b : Byte) : Flags4 := b.extractLsb' 4 4

end Sys2Proof.Machine
end

