-- ==== Sys2Proof/Machine/Operands.lean ====
section
/-! DEFINITION. The operand forms: one cell, and one pair as a view over two cells (spec/10_state.md R11 to R16). -/

namespace Sys2Proof.Machine

/-- `cell[r]` (spec/00_scope.md R9). -/
def Cells.get (S : Cells) : Reg → Byte
  | .a => S.a
  | .b => S.b
  | .c => S.c
  | .d => S.d
  | .e => S.e
  | .f => S.f
  | .h => S.h
  | .l => S.l

/-- `cell[r] <- v`: one cell written whole, nothing masked (R9, R12, R17). -/
def Cells.set (S : Cells) (r : Reg) (v : Byte) : Cells :=
  match r with
  | .a => { S with a := v }
  | .b => { S with b := v }
  | .c => { S with c := v }
  | .d => { S with d := v }
  | .e => { S with e := v }
  | .f => { S with f := v }
  | .h => { S with h := v }
  | .l => { S with l := v }

/-- `hi(p)`: the cell in bits 15-8 of a pair (R13). -/
def pairHi : Pair → Reg
  | .af => .a
  | .bc => .b
  | .de => .d
  | .hl => .h

/-- `lo(p)`: the cell in bits 7-0 of a pair (R13). -/
def pairLo : Pair → Reg
  | .af => .f
  | .bc => .c
  | .de => .e
  | .hl => .l

/-- `v[15:8]` (R6, R15). -/
def highByte (v : Word16) : Byte := v.extractLsb' 8 8

/-- `v[7:0]` (R6, R15). -/
def lowByte (v : Word16) : Byte := v.extractLsb' 0 8

/-- `PairValue(S, p)`: the concatenation of the two cells (R14). -/
def Cells.getPair (S : Cells) (p : Pair) : Word16 := S.get (pairHi p) ++ S.get (pairLo p)

/-- Writing a pair writes its two backing cells and nothing else (R15, R16). -/
def Cells.setPair (S : Cells) (p : Pair) (v : Word16) : Cells :=
  (S.set (pairHi p) (highByte v)).set (pairLo p) (lowByte v)

end Sys2Proof.Machine
end

