-- ==== Sys2Proof/Machine/Ops.lean ====
section
/-! DEFINITION. The named operations over the state: cell and pair access, the read-data output, the reset step and the input ports. The block has no memory (spec/20_memory.md R23) and no trap entry or return (spec/60_exceptions.md R68), so there is no operation for either. -/

namespace Sys2Proof.Machine

/-- A cell of the state before the step (R9, R10). -/
def State.readCell (s : State) (r : Reg) : Byte := s.cells.get r

/-- A cell written; every other cell keeps its value (R9, R10). -/
def State.writeCell (s : State) (r : Reg) (v : Byte) : State := { s with cells := s.cells.set r v }

/-- A pair of the state before the step; both bytes from that one state (R14, R26). -/
def State.readPair (s : State) (p : Pair) : Word16 := s.cells.getPair p

/-- A pair written, both cells in the one step (R15, R26). -/
def State.writePair (s : State) (p : Pair) (v : Word16) : State := { s with cells := s.cells.setPair p v }

/-- `rdata <- v`: the output of this step (R9). -/
def State.drive (s : State) (v : Word16) : State := { s with rdata := v }

/-- The output of a step that reads nothing (R40). -/
def noReadData : Word16 := 0x0000#16

/-- A narrower result in the 16-bit output, zero-extended (R7, R40). -/
def zeroExtended (n : Nat) (v : BitVec n) : Word16 := v.setWidth 16

/-- A reset step: every cell takes its reset value and the output is 0x0000 (spec/70_reset_and_hazards.md R71, R72). -/
def State.resetStep (s : State) : State := { s with cells := s.resetImage, rdata := noReadData }

/-- What the ports carry when the caller issues nothing: no reset and the NOP word (DEDUCED from R48, log entry 1, safe). -/
def idleInput : PortInput := { rst := false, cmd := 0x000000#24 }

/-- What the ports carry in the step about to be taken. -/
def State.nextInput (s : State) : PortInput := s.inputs.headD idleInput

/-- The ports moved on by one step. -/
def State.consumeInput (s : State) : State := { s with inputs := s.inputs.tail }

/-- The state with a command word presented in the very next step, `rst` low, ahead of what is already to come. -/
def State.presentCmd (s : State) (w : Cmd) : State := { s with inputs := { rst := false, cmd := w } :: s.inputs }

end Sys2Proof.Machine
end

