-- ==== Sys2Proof/Machine/FlagsCodec.lean ====
section
/-! DEFINITION. The meanings of the codec's commands (spec/41_flags_codec.md R60, R61). Their operand comes from `wdata`; they read and write no cell (R63). -/

namespace Sys2Proof.Machine

/-- ENC f (R60). -/
def execEnc (f : Flags4) (s : State) : Result := .next (s.drive (zeroExtended 8 (flagsEncode f)))

/-- DEC b (R61). -/
def execDec (b : Byte) (s : State) : Result := .next (s.drive (zeroExtended 4 (flagsDecode b)))

end Sys2Proof.Machine
end

