-- ==== Sys2Proof/Machine/RegisterFile.lean ====
section
/-! DEFINITION. The meanings of the register file's commands (spec/40_register_file.md R48 to R53). -/

namespace Sys2Proof.Machine

/-- NOP (R48). -/
def execNop (s : State) : Result := .next (s.drive noReadData)

/-- RD8 r (R49). -/
def execRd8 (r : Reg) (s : State) : Result := .next (s.drive (zeroExtended 8 (s.readCell r)))

/-- WR8 r, v (R50). -/
def execWr8 (r : Reg) (v : Byte) (s : State) : Result := .next ((s.writeCell r v).drive noReadData)

/-- RD16 p (R51). -/
def execRd16 (p : Pair) (s : State) : Result := .next (s.drive (s.readPair p))

/-- WR16 p, v (R52). -/
def execWr16 (p : Pair) (v : Word16) (s : State) : Result := .next ((s.writePair p v).drive noReadData)

/-- A reserved command word acts as NOP, whatever its bits: no trap, no record (R53, R65). -/
def execReserved (_w : Cmd) (s : State) : Result := .next (s.drive noReadData)

end Sys2Proof.Machine
end

