-- ==== Sys2Proof/Machine/Dispatch.lean ====
section
/-! DEFINITION. One arm per command (spec/40_register_file.md R47). -/

namespace Sys2Proof.Machine

def exec (i : Instr) (s : State) : Host.Outcome State Fault Refusal :=
  match i with
  | .nop => Sys2Proof.Machine.execNop s
  | .rd8 r => Sys2Proof.Machine.execRd8 r s
  | .wr8 r v => Sys2Proof.Machine.execWr8 r v s
  | .rd16 p => Sys2Proof.Machine.execRd16 p s
  | .wr16 p v => Sys2Proof.Machine.execWr16 p v s
  | .enc f => Sys2Proof.Machine.execEnc f s
  | .dec b => Sys2Proof.Machine.execDec b s
  | .reserved w => Sys2Proof.Machine.execReserved w s

end Sys2Proof.Machine
end

