-- ==== Sys2Proof/Machine/Ports.lean ====
section
/-! DEFINITION. One step for one value of the input ports: the spec's `Step(S, rst, cmd)` (spec/40_register_file.md R47). -/

namespace Sys2Proof.Machine

/-- Reset wins and drops the command of its step (spec/70_reset_and_hazards.md R72); otherwise the decoded command runs (R47). -/
def runInput (x : PortInput) (s : State) : Result :=
  if x.rst then .next s.resetStep else exec (decode x.cmd) s

end Sys2Proof.Machine
end

