-- ==== Sys2Proof/Machine/Step.lean ====
section
/-! DEFINITION. One step of the machine, and how one command is placed before it. -/

namespace Sys2Proof.Machine

/-- One step: take what the ports carry and perform it (spec/00_scope.md R10, spec/40_register_file.md R47). -/
def step (s : State) : Host.Outcome State Fault Refusal := runInput s.nextInput s.consumeInput

/-- `s` with the command word of these bits presented in the very next step (log entry 6). -/
def State.withFetchWord (s : State) (nbits w : Nat) : State := s.presentCmd (cmdOfTableWord nbits w)

end Sys2Proof.Machine
end

