-- ==== Sys2Proof/Machine/Assembler.lean ====
section
/-! DEFINITION. The assembler text for commands (spec/30_encoding.md R44 to R46): one line of characters to the step it asks for. White space, blank lines, letter case of names, and the width of an immediate are settled in log entries 7 and 8. -/

namespace Sys2Proof.Machine

/-- One line of assembler text, read but not yet checked: immediates are numbers of any size (R44). -/
inductive AsmLine where
  | nop
  | rd8 (r : Reg)
  | wr8 (r : Reg) (imm : Nat)
  | rd16 (p : Pair)
  | wr16 (p : Pair) (imm : Nat)
  | enc (imm : Nat)
  /-- The set form of ENC, the named flags true (R44). -/
  | encSet (flags : FlagSet)
  | dec (imm : Nat)
  /-- RST: one reset step (R44, R45). -/
  | rst
  /-- .word: one raw command word (R44, R45). -/
  | word (imm : Nat)
  deriving DecidableEq, Repr

/-- An immediate of `n` bits; one wider than its field is refused, never truncated (R44). -/
def immediate (n : Nat) (imm : Nat) : Option (BitVec n) :=
  if imm < 2 ^ n then some (BitVec.ofNat n imm) else none

/-- The step that presents one command word (R33). -/
def commandStep (w : Cmd) : PortInput := { rst := false, cmd := w }

/-- The step an RST line asks for (R44); the command word of a reset step is ignored (R72), so it is 0. -/
def resetLineStep : PortInput := { rst := true, cmd := 0x000000#24 }

/-- Each line assembles to one step: one command word, or one reset step (R45, R46). -/
def assembleLine : AsmLine → Option PortInput
  | .nop => some (commandStep (encode .nop))
  | .rd8 r => some (commandStep (encode (.rd8 r)))
  | .wr8 r imm => (immediate 8 imm).map fun v => commandStep (encode (.wr8 r v))
  | .rd16 p => some (commandStep (encode (.rd16 p)))
  | .wr16 p imm => (immediate 16 imm).map fun v => commandStep (encode (.wr16 p v))
  | .enc imm => (immediate 4 imm).map fun f => commandStep (encode (.enc f))
  | .encSet flags => some (commandStep (encode (.enc (flags4OfSet flags))))
  | .dec imm => (immediate 8 imm).map fun b => commandStep (encode (.dec b))
  | .rst => some resetLineStep
  | .word imm => (immediate 24 imm).map commandStep

/-- The line that writes a command; a reserved word is written with .word (R44). -/
def disassemble : Instr → AsmLine
  | .nop => .nop
  | .rd8 r => .rd8 r
  | .wr8 r v => .wr8 r v.toNat
  | .rd16 p => .rd16 p
  | .wr16 p v => .wr16 p v.toNat
  | .enc f => .enc f.toNat
  | .dec b => .dec b.toNat
  | .reserved w => .word w.toNat

/-- The tokens of a line. -/
inductive AsmToken where
  /-- A mnemonic, a name or an immediate. -/
  | text (cs : List Char)
  | comma
  | openBrace
  | closeBrace
  deriving DecidableEq, Repr

/-- The text token collected so far (backwards), if any, before the tokens that follow it. -/
def flushText (collected : List Char) (rest : List AsmToken) : List AsmToken :=
  match collected with
  | [] => rest
  | c :: cs => .text (c :: cs).reverse :: rest

/-- White space between tokens (log entry 7). -/
def isBlankChar (c : Char) : Bool := c == ' ' || c == '\t' || c == '\r'

/-- The tokens of a line up to its comment; `;` starts a comment (R44). -/
def tokens (collected : List Char) : List Char → List AsmToken
  | [] => flushText collected []
  | c :: cs =>
    if c == ';' then flushText collected []
    else if isBlankChar c then flushText collected (tokens [] cs)
    else if c == ',' then flushText collected (.comma :: tokens [] cs)
    else if c == Char.ofNat 123 then flushText collected (.openBrace :: tokens [] cs)
    else if c == Char.ofNat 125 then flushText collected (.closeBrace :: tokens [] cs)
    else tokens (c :: collected) cs

/-- A register name, as the source spells it (R44). -/
def regOfName : List Char → Option Reg
  | ['A'] => some .a
  | ['B'] => some .b
  | ['C'] => some .c
  | ['D'] => some .d
  | ['E'] => some .e
  | ['F'] => some .f
  | ['H'] => some .h
  | ['L'] => some .l
  | _ => none

/-- A pair name, as the source spells it (R44). -/
def pairOfName : List Char → Option Pair
  | ['A', 'F'] => some .af
  | ['B', 'C'] => some .bc
  | ['D', 'E'] => some .de
  | ['H', 'L'] => some .hl
  | _ => none

/-- A digit of the given base, if `c` is one. -/
def digitOf (base : Nat) (c : Char) : Option Nat :=
  let n := c.toNat
  let v := if 48 ≤ n ∧ n ≤ 57 then n - 48
    else if 65 ≤ n ∧ n ≤ 70 then n - 55
    else if 97 ≤ n ∧ n ≤ 102 then n - 87
    else base
  if v < base then some v else none

/-- The number the digits write, after the ones already read. -/
def digitsValue (base : Nat) (soFar : Nat) : List Char → Option Nat
  | [] => some soFar
  | c :: cs =>
    match digitOf base c with
    | some d => digitsValue base (base * soFar + d) cs
    | none => none

/-- An immediate: hex after `0x` or binary after `0b`, at least one digit (R44). -/
def immediateOfText : List Char → Option Nat
  | '0' :: 'x' :: c :: cs => digitsValue 16 0 (c :: cs)
  | '0' :: 'b' :: c :: cs => digitsValue 2 0 (c :: cs)
  | _ => none

/-- One flag letter added to a set; a letter given twice is refused (R44, log entry 7). -/
def addFlagLetter (s : FlagSet) : List Char → Option FlagSet
  | ['Z'] => if s.zero then none else some { s with zero := true }
  | ['N'] => if s.subtract then none else some { s with subtract := true }
  | ['H'] => if s.halfCarry then none else some { s with halfCarry := true }
  | ['C'] => if s.carry then none else some { s with carry := true }
  | _ => none

/-- The rest of a set form after its first letter: more letters after commas, then the closing brace and the line's end. -/
def flagLetters (s : FlagSet) : List AsmToken → Option FlagSet
  | [.closeBrace] => some s
  | .comma :: .text cs :: rest =>
    match addFlagLetter s cs with
    | some s' => flagLetters s' rest
    | none => none
  | _ => none

/-- The flag set a set form writes, after its opening brace (R44). -/
def flagSetOfTokens : List AsmToken → Option FlagSet
  | [.closeBrace] => some { zero := false, subtract := false, halfCarry := false, carry := false }
  | .text cs :: rest =>
    match addFlagLetter { zero := false, subtract := false, halfCarry := false, carry := false } cs with
    | some s => flagLetters s rest
    | none => none
  | _ => none

/-- The line a mnemonic (in capitals) and the tokens after it write (R44). -/
def lineOfMnemonic (m : List Char) (rest : List AsmToken) : Option AsmLine :=
  if m = ['N', 'O', 'P'] then
    match rest with
    | [] => some .nop
    | _ => none
  else if m = ['R', 'D', '8'] then
    match rest with
    | [.text r] => (regOfName r).map .rd8
    | _ => none
  else if m = ['W', 'R', '8'] then
    match rest with
    | [.text r, .comma, .text v] =>
      match regOfName r, immediateOfText v with
      | some r, some v => some (.wr8 r v)
      | _, _ => none
    | _ => none
  else if m = ['R', 'D', '1', '6'] then
    match rest with
    | [.text p] => (pairOfName p).map .rd16
    | _ => none
  else if m = ['W', 'R', '1', '6'] then
    match rest with
    | [.text p, .comma, .text v] =>
      match pairOfName p, immediateOfText v with
      | some p, some v => some (.wr16 p v)
      | _, _ => none
    | _ => none
  else if m = ['E', 'N', 'C'] then
    match rest with
    | [.text v] => (immediateOfText v).map .enc
    | .openBrace :: letters => (flagSetOfTokens letters).map .encSet
    | _ => none
  else if m = ['D', 'E', 'C'] then
    match rest with
    | [.text v] => (immediateOfText v).map .dec
    | _ => none
  else if m = ['R', 'S', 'T'] then
    match rest with
    | [] => some .rst
    | _ => none
  else if m = ['.', 'W', 'O', 'R', 'D'] then
    match rest with
    | [.text v] => (immediateOfText v).map .word
    | _ => none
  else none

/-- A letter in capitals: mnemonics are case-insensitive (R44). -/
def capital (c : Char) : Char :=
  if 97 ≤ c.toNat ∧ c.toNat ≤ 122 then Char.ofNat (c.toNat - 32) else c

/-- The line that a list of tokens writes. -/
def lineOfTokens : List AsmToken → Option AsmLine
  | .text m :: rest => lineOfMnemonic (m.map capital) rest
  | _ => none

/-- The steps one line of text asks for: none for a blank or comment line (log entry 7), else exactly one (R44, R45);
no result where the line is a syntax error. -/
def assembleTextLine (cs : List Char) : Option (List PortInput) :=
  match tokens [] cs with
  | [] => some []
  | t :: ts =>
    match lineOfTokens (t :: ts) with
    | some line => (assembleLine line).map fun x => [x]
    | none => none

/-- The characters split at line ends. -/
def splitLines (collected : List Char) : List Char → List (List Char)
  | [] => [collected.reverse]
  | c :: cs => if c == '\n' then collected.reverse :: splitLines [] cs else splitLines (c :: collected) cs

/-- The steps a list of lines asks for, in order; no result where a line is a syntax error. -/
def assembleLines : List (List Char) → Option (List PortInput)
  | [] => some []
  | l :: ls =>
    match assembleTextLine l, assembleLines ls with
    | some xs, some ys => some (xs ++ ys)
    | _, _ => none

/-- The steps a text asks for, one command a line (R44). -/
def assemble (cs : List Char) : Option (List PortInput) := assembleLines (splitLines [] cs)

end Sys2Proof.Machine
end

