-- ==== Sys2Proof/Safety.lean ====
section
/-! DEFINITION. What the claims speak of: the spec's tables written out a second time from the opcode table's masks, which cells a command reads and writes, the caller's obligation on F, and how names, numbers and lines are written as text (R44). No definition of the machine uses this file. -/

namespace Sys2Proof.Safety

open Sys2Proof.Machine

/-- The cells in the order of their selectors (spec/30_encoding.md R35). -/
def regTable : List Reg := [.a, .b, .c, .d, .e, .f, .h, .l]

/-- The pairs in the order of their selectors (R36). -/
def pairTable : List Pair := [.af, .bc, .de, .hl]

/-- The pairs' cells, high then low (spec/10_state.md R13). -/
def pairCells : Pair → Reg × Reg
  | .af => (.a, .f)
  | .bc => (.b, .c)
  | .de => (.d, .e)
  | .hl => (.h, .l)

/-- RD8's control bytes (R46). -/
def rd8Control : Reg → Byte
  | .a => 0x01#8
  | .b => 0x09#8
  | .c => 0x11#8
  | .d => 0x19#8
  | .e => 0x21#8
  | .f => 0x29#8
  | .h => 0x31#8
  | .l => 0x39#8

/-- WR8's control bytes (R46). -/
def wr8Control : Reg → Byte
  | .a => 0x02#8
  | .b => 0x0A#8
  | .c => 0x12#8
  | .d => 0x1A#8
  | .e => 0x22#8
  | .f => 0x2A#8
  | .h => 0x32#8
  | .l => 0x3A#8

/-- RD16's control bytes (R46). -/
def rd16Control : Pair → Byte
  | .af => 0x03#8
  | .bc => 0x0B#8
  | .de => 0x13#8
  | .hl => 0x1B#8

/-- WR16's control bytes (R46). -/
def wr16Control : Pair → Byte
  | .af => 0x04#8
  | .bc => 0x0C#8
  | .de => 0x14#8
  | .hl => 0x1C#8

/-- The position of a command's row in the operation table (R34), 7 for a reserved word. -/
def rowOf : Instr → Nat
  | .nop => 0
  | .rd8 _ => 1
  | .wr8 _ _ => 2
  | .rd16 _ => 3
  | .wr16 _ _ => 4
  | .enc _ => 5
  | .dec _ => 6
  | .reserved _ => 7

/-- How many of the 256 control bytes select row `k`. -/
def controlBytesOfRow (k : Nat) : Nat :=
  ((List.range 256).filter fun n => rowOf (decode (0x0000#16 ++ BitVec.ofNat 8 n)) == k).length

/-- The bits of a command word that have an effect, by its row of the opcode table: the control byte and the data bits
its operation uses (R38). -/
def effectiveBits (w : Cmd) : Cmd :=
  if w &&& 0x0000C7#24 = 0x000002#24 then 0x00FFFF#24
  else if w &&& 0x0000E7#24 = 0x000004#24 then 0xFFFFFF#24
  else if w &&& 0x0000FF#24 = 0x000005#24 then 0x000FFF#24
  else if w &&& 0x0000FF#24 = 0x000006#24 then 0x00FFFF#24
  else 0x0000FF#24

/-- `PairValue` by shifting (R14). -/
def pairByShift (hi lo : Byte) : Word16 := (hi.setWidth 16 <<< 8) ||| lo.setWidth 16

/-- The spec's `Step(S, rst, cmd) -> (S', rdata)` (spec/00_scope.md R10, spec/40_register_file.md R47), written from the
rows of spec/opcode_table.json by mask and match, with the shifts and masks of R14, R15, R38, R58 and R59; a word that
matches no row is reserved. It uses neither the decoder nor the meanings. -/
def tableStep (image S : Cells) (x : PortInput) : Cells × Word16 :=
  let w := x.cmd
  let data : Word16 := (w >>> 8).setWidth 16
  let sel := ((w >>> 3) &&& 0x000007#24).toNat
  let r := regTable.getD sel .a
  let p := pairCells (pairTable.getD sel .af)
  if x.rst then (image, 0x0000#16)
  else if w &&& 0x0000FF#24 = 0x000000#24 then (S, 0x0000#16)
  else if w &&& 0x0000C7#24 = 0x000001#24 then (S, (S.get r).setWidth 16)
  else if w &&& 0x0000C7#24 = 0x000002#24 then (S.set r ((data &&& 0x00FF#16).setWidth 8), 0x0000#16)
  else if w &&& 0x0000E7#24 = 0x000003#24 then (S, pairByShift (S.get p.1) (S.get p.2))
  else if w &&& 0x0000E7#24 = 0x000004#24 then
    ((S.set p.1 ((data >>> 8 &&& 0x00FF#16).setWidth 8)).set p.2 ((data &&& 0x00FF#16).setWidth 8), 0x0000#16)
  else if w &&& 0x0000FF#24 = 0x000005#24 then (S, (data &&& 0x000F#16) <<< 4)
  else if w &&& 0x0000FF#24 = 0x000006#24 then (S, (data &&& 0x00F0#16) >>> 4)
  else (S, 0x0000#16)

/-- The cells and the last output after a list of port inputs, by `tableStep` alone. -/
def tableRun (image : Cells) : Cells × Word16 → List PortInput → Cells × Word16
  | (S, out), [] => (S, out)
  | (S, _), x :: xs => tableRun image (tableStep image S x) xs

/-- The cells a command reads (spec/10_state.md R20). -/
def cellsRead : Instr → List Reg
  | .nop => []
  | .rd8 r => [r]
  | .wr8 _ _ => []
  | .rd16 p => [(pairCells p).1, (pairCells p).2]
  | .wr16 _ _ => []
  | .enc _ => []
  | .dec _ => []
  | .reserved _ => []

/-- The cells a command writes (R20). -/
def cellsWritten : Instr → List Reg
  | .nop => []
  | .rd8 _ => []
  | .wr8 r _ => [r]
  | .rd16 _ => []
  | .wr16 p _ => [(pairCells p).1, (pairCells p).2]
  | .enc _ => []
  | .dec _ => []
  | .reserved _ => []

/-- What a command writes into cell `q`, if it writes it (R50, R52). -/
def commandWrites (q : Reg) : Instr → Option Byte
  | .nop => none
  | .rd8 _ => none
  | .wr8 r v => if q = r then some v else none
  | .rd16 _ => none
  | .wr16 p v =>
    if q = (pairCells p).1 then some ((v >>> 8).setWidth 8)
    else if q = (pairCells p).2 then some (v.setWidth 8)
    else none
  | .enc _ => none
  | .dec _ => none
  | .reserved _ => none

/-- What one step of the ports writes into cell `q`, if it writes it: a reset its reset value, a command what it writes (R50, R52, R71, R72). -/
def inputWrites (image : Cells) (q : Reg) (x : PortInput) : Option Byte :=
  if x.rst then some (image.get q) else commandWrites q (decode x.cmd)

/-- Whether a step of the ports can write a cell: a reset, or a command that has a cell to write. -/
def isWriter (x : PortInput) : Bool := x.rst || !(cellsWritten (decode x.cmd)).isEmpty

/-- F's low nibble is 0, and nothing the caller still has to present writes another value there: the obligation the source leaves
to "the calling instruction engine" (spec/70_reset_and_hazards.md R77, spec/90_conflicts.md C5). -/
def callerKeepsLowNibbleClear (s : State) : Prop :=
  s.cells.f &&& 0x0F#8 = 0x00#8 ∧
    ∀ x ∈ s.inputs, ∀ v, inputWrites s.resetImage .f x = some v → v &&& 0x0F#8 = 0x00#8

/-- `m` writes the mnemonic `name` in any letter case (R44), by the library's capitals and not the assembler's own. -/
def writesMnemonic (m name : List Char) : Prop := m.map Char.toUpper = name

/-- A register's name in assembler text (R44). -/
def regText : Reg → Char
  | .a => 'A'
  | .b => 'B'
  | .c => 'C'
  | .d => 'D'
  | .e => 'E'
  | .f => 'F'
  | .h => 'H'
  | .l => 'L'

/-- A pair's name in assembler text (R44). -/
def pairText : Pair → List Char
  | .af => ['A', 'F']
  | .bc => ['B', 'C']
  | .de => ['D', 'E']
  | .hl => ['H', 'L']

/-- The digits 0 to 9, A to F. -/
def digitText (d : Nat) : Char :=
  ['0', '1', '2', '3', '4', '5', '6', '7', '8', '9', 'A', 'B', 'C', 'D', 'E', 'F'].getD d '0'

/-- The lowest `k` digits of `n` in a base, the most significant first. -/
def numeral (base : Nat) : Nat → Nat → List Char
  | 0, _ => []
  | k + 1, n => numeral base k (n / base) ++ [digitText (n % base)]

/-- `t` writes the number `n` as an immediate: hex after `0x` or binary after `0b`, with any number of digits that holds it (R44). -/
def writesNumber (t : List Char) (n : Nat) : Prop :=
  ∃ k, 0 < k ∧ (t = '0' :: 'x' :: numeral 16 k n ∧ n < 16 ^ k ∨ t = '0' :: 'b' :: numeral 2 k n ∧ n < 2 ^ k)

/-- The set form of a flag set: the letters of its true flags in the order Z, N, H, C, between braces (R44). -/
def flagSetText (z n h c : Bool) : List Char :=
  let letters := (if z then [['Z']] else []) ++ (if n then [['N']] else []) ++ (if h then [['H']] else []) ++
    (if c then [['C']] else [])
  Char.ofNat 123 :: [','].intercalate letters ++ [Char.ofNat 125]

/-- A line with nothing before its comment but spaces, tabs and carriage returns (log entry 7). -/
def isBlankLine (cs : List Char) : Bool :=
  (cs.takeWhile fun c => c != ';').all fun c => c == ' ' || c == '\t' || c == '\r'

end Sys2Proof.Safety
end

