-- ==== Sys2Proof/Certificates/Slice0/Obligations.lean ====
section
/-! DEFINITION. The statements for the provers. Each docstring names the rule of the spec it formalises. -/

open Sys2Proof Sys2Proof.Machine Sys2Proof.Safety

/-! ## Encoding -/

/-- R42 and R46: decoding the word of a well-formed command gives the command back, every operand at every value. -/
def Obligations.DecodeOfEncode : Prop :=
  ∀ i : Instr, i.wellFormed = true → decode (encode i) = i

/-- R38, R42, R46: encoding what a word decodes to gives the word back, its ignored data bits cleared; a reserved word
comes back whole (that a reserved command carries its word is the model's choice, log entry 4). -/
def Obligations.EncodeOfDecode : Prop :=
  ∀ w : Cmd, encode (decode w) = if isReservedWord w then w else w &&& effectiveBits w

/-- R38: the operands are the bits the table names, and the other data bits have no effect on state or output. -/
def Obligations.DataOperandsAndIgnoredBits : Prop :=
  (∀ (d : Word16) (r : Reg), decode (d ++ wr8Control r) = .wr8 r (d.extractLsb' 0 8)) ∧
  (∀ (d : Word16) (p : Pair), decode (d ++ wr16Control p) = .wr16 p d) ∧
  (∀ d : Word16, decode (d ++ 0x05#8) = .enc (d.extractLsb' 0 4)) ∧
  (∀ d : Word16, decode (d ++ 0x06#8) = .dec (d.extractLsb' 0 8)) ∧
  ∀ (w w' : Cmd) (s : State), w &&& effectiveBits w = w' &&& effectiveBits w →
    ∃ t, exec (decode w) s = .next t ∧ exec (decode w') s = .next t

/-- R37, R41, R42: the reserved words are exactly those of the four clauses; the control byte alone picks the operation; 27
control bytes select one (NOP 1, RD8 8, WR8 8, RD16 4, WR16 4, ENC 1, DEC 1) and 229 are reserved; none stops the machine.
That a reserved word decodes to the reserved command that carries it, and to no other, is the model's choice (DESIGN
CHOICE, log entry 4). -/
def Obligations.ReservedWordsAreTheFourClauses : Prop :=
  (∀ w : Cmd, decode w = .reserved w ↔
    (w.extractLsb' 0 3 = 0b111#3 ∨ w.extractLsb' 6 2 ≠ 0b00#2 ∨
      ((w.extractLsb' 0 3 = 0b000#3 ∨ w.extractLsb' 0 3 = 0b101#3 ∨ w.extractLsb' 0 3 = 0b110#3) ∧
        w.extractLsb' 3 3 ≠ 0b000#3) ∨
      ((w.extractLsb' 0 3 = 0b011#3 ∨ w.extractLsb' 0 3 = 0b100#3) ∧ w.getLsbD 5 = true))) ∧
  (∀ w u : Cmd, decode w = .reserved u → u = w) ∧
  (∀ (d : Word16) (c : Byte), rowOf (decode (d ++ c)) = rowOf (decode (0x0000#16 ++ c))) ∧
  (List.range 8).map controlBytesOfRow = [1, 8, 8, 4, 4, 1, 1, 229] ∧
  ∀ (w : Cmd) (s : State), ∃ t, exec (.reserved w) s = .next t

/-- R35: the eight register selectors name A, B, C, D, E, F, H, L, and all eight are legal. -/
def Obligations.RegisterSelectors : Prop :=
  ∀ (w : Cmd) (r : Reg), w.extractLsb' 6 2 = 0b00#2 → regTable[(w.extractLsb' 3 3).toNat]? = some r →
    (w.extractLsb' 0 3 = 0b001#3 → decode w = .rd8 r) ∧
    (w.extractLsb' 0 3 = 0b010#3 → decode w = .wr8 r (w.extractLsb' 8 8))

/-- R36: the four pair selectors name AF, BC, DE, HL; `sel[2] = 1` is reserved. -/
def Obligations.PairSelectors : Prop :=
  (∀ (w : Cmd) (p : Pair), w.extractLsb' 6 2 = 0b00#2 → pairTable[(w.extractLsb' 3 3).toNat]? = some p →
    (w.extractLsb' 0 3 = 0b011#3 → decode w = .rd16 p) ∧
    (w.extractLsb' 0 3 = 0b100#3 → decode w = .wr16 p (w.extractLsb' 8 16))) ∧
  ∀ w : Cmd, w.getLsbD 5 = true → (w.extractLsb' 0 3 = 0b011#3 ∨ w.extractLsb' 0 3 = 0b100#3) →
    decode w = .reserved w

/-- Command words worked out in spec/95_test_vectors.md decode to the commands they stand for, at least one per row. -/
def Obligations.WorkedWordsDecode : Prop :=
  decode 0x123400#24 = .nop ∧ decode 0xFFFF19#24 = .rd8 .d ∧ decode 0xABCD0A#24 = .wr8 .b 0xCD#8 ∧
  decode 0x00001B#24 = .rd16 .hl ∧ decode 0x12340C#24 = .wr16 .bc 0x1234#16 ∧ decode 0xFFF505#24 = .enc 0b0101#4 ∧
  decode 0xFF8006#24 = .dec 0x80#8 ∧ decode 0xFFFF3F#24 = .reserved 0xFFFF3F#24 ∧
  decode 0x000041#24 = .reserved 0x000041#24 ∧ decode 0x000F0D#24 = .reserved 0x000F0D#24 ∧
  decode 0x12342C#24 = .reserved 0x12342C#24

/-! ## The commands: encoding, result and frame -/

/-- R48: NOP, whatever its data bits, drives 0x0000 and changes nothing else. -/
def Obligations.NopIsIdle : Prop :=
  (∀ d : Word16, decode (d ++ 0x00#8) = .nop) ∧
  ∀ s : State, exec .nop s = .next { s with rdata := 0x0000#16 }

/-- R49: RD8 r drives the zero-extended cell, all of its eight bits, and changes nothing else; for either cell of a pair that
is the half of the pair value RD16 gives. -/
def Obligations.Rd8ReadsOneCell : Prop :=
  (∀ (d : Word16) (r : Reg), decode (d ++ rd8Control r) = .rd8 r) ∧
  (∀ (r : Reg) (s : State), ∃ t, exec (.rd8 r) s = .next t ∧
    t = { s with rdata := (s.cells.get r).setWidth 16 } ∧ t.rdata.extractLsb' 8 8 = 0x00#8) ∧
  ∀ (p : Pair) (s : State), ∃ u t t', exec (.rd16 p) s = .next u ∧ exec (.rd8 (pairCells p).1) s = .next t ∧
    exec (.rd8 (pairCells p).2) s = .next t' ∧ t.rdata = u.rdata >>> 8 ∧ t'.rdata = u.rdata &&& 0x00FF#16

/-- R50: WR8 r, v writes `v`, unmasked, into cell r; every other cell keeps its value; the output is 0x0000. -/
def Obligations.Wr8WritesOneCell : Prop :=
  (∀ (d : Word16) (r : Reg), decode (d ++ wr8Control r) = .wr8 r (d.extractLsb' 0 8)) ∧
  ∀ (r : Reg) (v : Byte) (s : State), ∃ t, exec (.wr8 r v) s = .next t ∧
    t.cells.get r = v ∧ (∀ q, q ≠ r → t.cells.get q = s.cells.get q) ∧
    t.rdata = 0x0000#16 ∧ t.resetImage = s.resetImage ∧ t.inputs = s.inputs

/-- R14, R51: RD16 p drives the pair value, the high-named cell in bits 15-8, and changes nothing else; a word with
`sel[2] = 1` is no pair read. -/
def Obligations.Rd16ReadsOnePair : Prop :=
  (∀ (d : Word16) (p : Pair), decode (d ++ rd16Control p) = .rd16 p) ∧
  (∀ (p : Pair) (s : State), exec (.rd16 p) s =
    .next { s with rdata := pairByShift (s.cells.get (pairCells p).1) (s.cells.get (pairCells p).2) }) ∧
  ∀ (d : Word16) (x : BitVec 2), decode (d ++ 0b001#3 ++ x ++ 0b011#3) = .reserved (d ++ 0b001#3 ++ x ++ 0b011#3)

/-- R15, R52: WR16 p, v writes `v[15:8]` into the high cell and `v[7:0]` into the low cell in one step, unmasked; every other
cell keeps its value; the output is 0x0000; a word with `sel[2] = 1` writes nothing. -/
def Obligations.Wr16WritesOnePair : Prop :=
  (∀ (d : Word16) (p : Pair), decode (d ++ wr16Control p) = .wr16 p d) ∧
  (∀ (p : Pair) (v : Word16) (s : State), ∃ t, exec (.wr16 p v) s = .next t ∧
    t.cells.get (pairCells p).1 = (v >>> 8 &&& 0x00FF#16).setWidth 8 ∧
    t.cells.get (pairCells p).2 = (v &&& 0x00FF#16).setWidth 8 ∧
    (∀ q, q ≠ (pairCells p).1 → q ≠ (pairCells p).2 → t.cells.get q = s.cells.get q) ∧
    t.rdata = 0x0000#16 ∧ t.resetImage = s.resetImage ∧ t.inputs = s.inputs) ∧
  ∀ (d : Word16) (x : BitVec 2) (s : State),
    exec (decode (d ++ 0b001#3 ++ x ++ 0b100#3)) s = .next { s with rdata := 0x0000#16 }

/-- R58, R60: ENC f drives the packed byte, the flags in bits 7-4 and every other bit 0, and changes nothing else; data bits
above the four flags are ignored. -/
def Obligations.EncPacksFlags : Prop :=
  (∀ d : Word16, decode (d ++ 0x05#8) = .enc (d.extractLsb' 0 4)) ∧
  ∀ (f : Flags4) (s : State), ∃ t, exec (.enc f) s = .next t ∧ t = { s with rdata := f.setWidth 16 <<< 4 } ∧
    t.rdata.getLsbD 7 = f.getLsbD 3 ∧ t.rdata.getLsbD 6 = f.getLsbD 2 ∧ t.rdata.getLsbD 5 = f.getLsbD 1 ∧
    t.rdata.getLsbD 4 = f.getLsbD 0 ∧ t.rdata.extractLsb' 0 4 = 0b0000#4 ∧ t.rdata.extractLsb' 8 8 = 0x00#8

/-- R59, R61: DEC b drives bits 7-4 of its operand in `rdata[3:0]`, every other bit 0, and changes nothing else; it does
not read F. -/
def Obligations.DecUnpacksByte : Prop :=
  (∀ d : Word16, decode (d ++ 0x06#8) = .dec (d.extractLsb' 0 8)) ∧
  ∀ (b : Byte) (s : State), ∃ t, exec (.dec b) s = .next t ∧ t = { s with rdata := (b >>> 4).setWidth 16 } ∧
    t.rdata.getLsbD 3 = b.getLsbD 7 ∧ t.rdata.getLsbD 2 = b.getLsbD 6 ∧ t.rdata.getLsbD 1 = b.getLsbD 5 ∧
    t.rdata.getLsbD 0 = b.getLsbD 4 ∧ t.rdata.extractLsb' 4 12 = 0x000#12

/-- R53: a reserved word performs no operation: nothing changes, the output is 0x0000, as for NOP. -/
def Obligations.ReservedWordActsAsNop : Prop :=
  (∀ w : Cmd, isReservedWord w = true → decode w = .reserved w) ∧
  ∀ (w : Cmd) (s : State), exec (.reserved w) s = .next { s with rdata := 0x0000#16 } ∧
    exec (.reserved w) s = exec .nop s

/-- R40: the output of every command and of a reset: 0x0000 where nothing is read, and every bit above an 8-bit or 4-bit result
0. -/
def Obligations.OutputOfEachCommand : Prop :=
  ∀ (s : State) (r : Reg) (p : Pair) (v b : Byte) (x : Word16) (f : Flags4) (w : Cmd),
    (∃ t, exec .nop s = .next t ∧ t.rdata = 0x0000#16) ∧ (∃ t, exec (.wr8 r v) s = .next t ∧ t.rdata = 0x0000#16) ∧
    (∃ t, exec (.wr16 p x) s = .next t ∧ t.rdata = 0x0000#16) ∧
    (∃ t, exec (.reserved w) s = .next t ∧ t.rdata = 0x0000#16) ∧
    (∃ t, runInput ⟨true, w⟩ s = .next t ∧ t.rdata = 0x0000#16) ∧
    (∃ t, exec (.rd8 r) s = .next t ∧ t.rdata = 0x00#8 ++ s.cells.get r) ∧
    (∃ t, exec (.rd16 p) s = .next t ∧ t.rdata = s.cells.get (pairCells p).1 ++ s.cells.get (pairCells p).2) ∧
    (∃ t, exec (.enc f) s = .next t ∧ t.rdata = 0x00#8 ++ f ++ 0b0000#4) ∧
    (∃ t, exec (.dec b) s = .next t ∧ t.rdata = 0x000#12 ++ b.extractLsb' 4 4)

/-! ## The codec -/

/-- R57: the bit positions of the four flags in the packed byte, both ways. -/
def Obligations.FlagBitPositions : Prop :=
  (∀ z n h c : Bool, flagsEncode (flags4OfSet ⟨z, n, h, c⟩) =
    BitVec.ofBool z ++ BitVec.ofBool n ++ BitVec.ofBool h ++ BitVec.ofBool c ++ 0b0000#4) ∧
  ∀ b : Byte, setOfFlags4 (flagsDecode b) = ⟨b.getLsbD 7, b.getLsbD 6, b.getLsbD 5, b.getLsbD 4⟩

/-- R62: the round trips of ENC and DEC, each result fed to the other command. -/
def Obligations.CodecRoundTrips : Prop :=
  (∀ (f : Flags4) (s : State), ∃ t u, exec (.enc f) s = .next t ∧
    exec (.dec (t.rdata.extractLsb' 0 8)) t = .next u ∧ u.rdata = f.setWidth 16) ∧
  ∀ (b : Byte) (s : State), ∃ t u, exec (.dec b) s = .next t ∧
    exec (.enc (t.rdata.extractLsb' 0 4)) t = .next u ∧ u.rdata = (b &&& 0xF0#8).setWidth 16 ∧
    u.rdata &&& 0x000F#16 = 0x0000#16 ∧ (b &&& 0x0F#8 = 0x00#8 → u.rdata = b.setWidth 16)

/-- R63: ENC and DEC give the same output in every state, change no cell, and do not change what the next command gives. -/
def Obligations.CodecIsStateless : Prop :=
  (∀ (f : Flags4) (s s' : State), ∃ t t', exec (.enc f) s = .next t ∧ exec (.enc f) s' = .next t' ∧
    t.rdata = t'.rdata ∧ t.cells = s.cells ∧ ∀ i : Instr, exec i t = exec i s) ∧
  ∀ (b : Byte) (s s' : State), ∃ t t', exec (.dec b) s = .next t ∧ exec (.dec b) s' = .next t' ∧
    t.rdata = t'.rdata ∧ t.cells = s.cells ∧ ∀ i : Instr, exec i t = exec i s

/-! ## Laws of the register file -/

/-- R54: after WR16 P, RD16 P returns the value written, RD8 of the high cell its high byte and RD8 of the low cell its low
byte, one after the other. -/
def Obligations.PairRoundTrip : Prop :=
  (∀ (p : Pair) (x y : Byte) (s : State), ∃ t u v w,
    exec (.wr16 p (pairByShift x y)) s = .next t ∧ exec (.rd16 p) t = .next u ∧
    exec (.rd8 (pairCells p).1) u = .next v ∧ exec (.rd8 (pairCells p).2) v = .next w ∧
    u.rdata = pairByShift x y ∧ v.rdata = x.setWidth 16 ∧ w.rdata = y.setWidth 16) ∧
  ∀ (p : Pair) (x : Word16) (s : State), ∃ t u,
    exec (.wr16 p x) s = .next t ∧ exec (.rd16 p) t = .next u ∧ u.rdata = x

/-- R55: the two access paths see the same bytes: RD16 is made of the two RD8, and after WR8 r the pair that holds r reads
back with the new byte in r's half and the other half unchanged. -/
def Obligations.BytePairConsistency : Prop :=
  (∀ (p : Pair) (s : State), ∃ u h l, exec (.rd16 p) s = .next u ∧ exec (.rd8 (pairCells p).1) s = .next h ∧
    exec (.rd8 (pairCells p).2) s = .next l ∧ u.rdata = (h.rdata <<< 8) ||| l.rdata) ∧
  ∀ (p : Pair) (v : Byte) (s : State), ∃ t u t' u',
    exec (.wr8 (pairCells p).1 v) s = .next t ∧ exec (.rd16 p) t = .next u ∧
    u.rdata = pairByShift v (s.cells.get (pairCells p).2) ∧
    exec (.wr8 (pairCells p).2 v) s = .next t' ∧ exec (.rd16 p) t' = .next u' ∧
    u'.rdata = pairByShift (s.cells.get (pairCells p).1) v

/-- R56: every command completes and changes no cell but the one WR8 or the two WR16 names. -/
def Obligations.CommandsChangeOnlyNamedCells : Prop :=
  ∀ (i : Instr) (s : State), ∃ t, exec i s = .next t ∧
    ∀ q, q ∉ cellsWritten i → t.cells.get q = s.cells.get q

/-- R20: the access matrix. The output and the bytes written depend on no cell but those the matrix lets the command read,
no other cell is written, and a reset reads none and writes all eight. -/
def Obligations.AccessMatrixHolds : Prop :=
  (∀ (i : Instr) (s s' : State), (∀ q ∈ cellsRead i, s.cells.get q = s'.cells.get q) →
    ∃ t t', exec i s = .next t ∧ exec i s' = .next t' ∧ t.rdata = t'.rdata ∧
      (∀ q ∈ cellsWritten i, t.cells.get q = t'.cells.get q) ∧
      ∀ q, q ∉ cellsWritten i → t.cells.get q = s.cells.get q) ∧
  ∀ (w : Cmd) (s : State), ∃ t, runInput ⟨true, w⟩ s = .next t ∧ ∀ q, t.cells.get q = s.resetImage.get q

/-- R17: F keeps all eight bits written by WR8 F, by WR16 AF and by reset, and RD8 F and RD16 AF return all eight. -/
def Obligations.RawFlagsStoredWhole : Prop :=
  (∀ (v : Byte) (s : State), ∃ t u u', exec (.wr8 .f v) s = .next t ∧ exec (.rd8 .f) t = .next u ∧
    exec (.rd16 .af) t = .next u' ∧ u.rdata = v.setWidth 16 ∧ u'.rdata &&& 0x00FF#16 = v.setWidth 16) ∧
  (∀ (v : Word16) (s : State), ∃ t u u', exec (.wr16 .af v) s = .next t ∧ exec (.rd8 .f) t = .next u ∧
    exec (.rd16 .af) t = .next u' ∧ u.rdata = v &&& 0x00FF#16 ∧ u'.rdata = v) ∧
  ∀ (w : Cmd) (s : State), ∃ t u u', runInput ⟨true, w⟩ s = .next t ∧ exec (.rd8 .f) t = .next u ∧
    exec (.rd16 .af) t = .next u' ∧ u.rdata = s.resetImage.f.setWidth 16 ∧
    u'.rdata &&& 0x00FF#16 = s.resetImage.f.setWidth 16

/-- R27: reads, NOP and the codec leave the cells as they are and give the same again in the next step; performing a command
twice leaves the cells as performing it once. -/
def Obligations.ReadsPureWritesIdempotent : Prop :=
  ∀ (i : Instr) (s : State), ∃ t u, exec i s = .next t ∧ exec i t = .next u ∧ u.cells = t.cells ∧
    u.rdata = t.rdata ∧ (cellsWritten i = [] → t.cells = s.cells)

/-! ## Reset -/

/-- R71, R72: in a step with `rst = 1` every cell takes its reset value, the output is 0x0000 and the command is dropped,
whatever it is; every command leaves all cells but at most two, so no other operation writes all eight. -/
def Obligations.ResetWinsOverCommand : Prop :=
  (∀ (w : Cmd) (s : State), ∃ t, runInput ⟨true, w⟩ s = .next t ∧ (∀ q, t.cells.get q = s.resetImage.get q) ∧
    t.rdata = 0x0000#16) ∧
  ∀ (i : Instr) (s : State), ∃ t, exec i s = .next t ∧ (cellsWritten i).length ≤ 2 ∧
    ∀ q, q ∉ cellsWritten i → t.cells.get q = s.cells.get q

/-- R71, R72 for a step of the machine: where the next input has `rst = 1`, the step sets the cells to the reset image and
drives 0x0000, and takes that one input. That inputs and image are fields of State is the model's choice (DESIGN CHOICE,
log entries 1 and 3). -/
def Obligations.StepTakesResetInput : Prop :=
  ∀ (s : State) (w : Cmd) (rest : List PortInput), s.inputs = ⟨true, w⟩ :: rest →
    step s = .next { cells := s.resetImage, rdata := 0x0000#16, resetImage := s.resetImage, inputs := rest }

/-- R21: the reset state holds the default 0x00 in every cell; with any other `RESET_IMAGE` it holds that image. -/
def Obligations.ResetStateHoldsImage : Prop :=
  (∀ r : Reg, State.reset.cells.get r = 0x00#8) ∧
  ∀ (image : Cells) (r : Reg), (State.resetWith image).cells.get r = image.get r

/-! ## The step and runs -/

/-- R47: when a command is on the port and `rst` is low, the step is the decoded command's meaning, on the state whose ports
have moved on (the list of inputs to come is the model's own field, log entry 1). -/
def Obligations.StepRunsDecodedCommand : Prop :=
  ∀ (s : State) (w : Cmd) (rest : List PortInput), s.inputs = ⟨false, w⟩ :: rest →
    step s = exec (decode w) { s with inputs := rest }

/-- The model's choice (log entry 1), after R48: when the caller issues nothing the step is an idle step. -/
def Obligations.NothingIssuedIsIdle : Prop :=
  ∀ s : State, s.inputs = [] → step s = .next { s with rdata := 0x0000#16 }

/-- R64: a step returns a next state for every input, never a fault or a refusal. -/
def Obligations.EveryStepReturnsNextState : Prop :=
  ∀ s : State, ∃ t, step s = .next t

/-- R19: the output is latched nowhere: no step depends on the last one's `rdata`. -/
def Obligations.OutputIsNeverRead : Prop :=
  ∀ (s : State) (v : Word16), step { s with rdata := v } = step s

/-- `RESET_IMAGE` is a parameter of the block (R5, R21): no step writes it (it is a field of State by the model's choice,
log entry 3). -/
def Obligations.ResetImageIsConstant : Prop :=
  ∀ s t : State, step s = .next t → t.resetImage = s.resetImage

/-- R10, R47 against the opcode table: a step of the machine is the step read off the table's masks, in every state and for
every value of the ports. -/
def Obligations.StepRefinesOpcodeTable : Prop :=
  ∀ (s : State) (x : PortInput) (rest : List PortInput), s.inputs = x :: rest →
    ∃ t, step s = .next t ∧ (t.cells, t.rdata) = tableStep s.resetImage s.cells x ∧
      t.resetImage = s.resetImage ∧ t.inputs = rest

/-- R28, R78: from every state, `k` presented inputs take exactly `k` steps, in order, and leave the cells and the output that
the table's steps give one after the other. -/
def Obligations.RunFollowsOpcodeTable : Prop :=
  ∀ (xs rest : List PortInput) (s : State), s.inputs = xs ++ rest →
    ∃ t : State, core.run xs.length s = .next t ∧
      (t.cells, t.rdata) = tableRun s.resetImage (s.cells, s.rdata) xs ∧
      t.resetImage = s.resetImage ∧ t.inputs = rest

/-- R75, R76: after a run, a cell holds what the last step that wrote it wrote, whichever path wrote it. -/
def Obligations.LaterWriteWins : Prop :=
  ∀ (s : State) (before after rest : List PortInput) (x : PortInput) (r : Reg) (v : Byte),
    s.inputs = before ++ x :: after ++ rest → inputWrites s.resetImage r x = some v →
    (∀ y ∈ after, inputWrites s.resetImage r y = none) →
    ∃ t : State, core.run (before.length + 1 + after.length) s = .next t ∧ t.cells.get r = v

/-- R12, R70: a cell that no step of a run writes holds its value through the run. -/
def Obligations.UnwrittenCellHolds : Prop :=
  ∀ (s : State) (xs rest : List PortInput) (r : Reg), s.inputs = xs ++ rest →
    (∀ y ∈ xs, inputWrites s.resetImage r y = none) →
    ∃ t : State, core.run xs.length s = .next t ∧ t.cells.get r = s.cells.get r

/-- R27, R56, R63: taking every step that writes nothing (reads, NOP, codec, reserved words) out of a run leaves the same
cells. -/
def Obligations.NonWritersAreInvisible : Prop :=
  ∀ (s : State) (xs rest : List PortInput), s.inputs = xs ++ rest →
    ∃ t u : State, core.run xs.length s = .next t ∧
      core.run (xs.filter isWriter).length { s with inputs := xs.filter isWriter } = .next u ∧
      t.cells = u.cells

/-- R12: no cell can learn anything of another: two runs that agree on cell `r` and on what is written into `r` end with the same
value in `r`, whatever the other cells hold and whatever is done to them. -/
def Obligations.CellsAreIsolated : Prop :=
  ∀ (s s' : State) (xs xs' rest rest' : List PortInput) (r : Reg),
    s.inputs = xs ++ rest → s'.inputs = xs' ++ rest' → s.cells.get r = s'.cells.get r →
    xs.map (inputWrites s.resetImage r) = xs'.map (inputWrites s'.resetImage r) →
    ∃ t t' : State, core.run xs.length s = .next t ∧ core.run xs'.length s' = .next t' ∧
      t.cells.get r = t'.cells.get r

/-! ## The caller's obligation on F -/

/-- R77, C5: where the caller keeps F's low nibble clear, every step keeps it so. The block does not enforce it (R17); this is
an invariant of block and caller together. -/
def Obligations.LowNibbleStaysClear : Prop :=
  ∀ s t : State, callerKeepsLowNibbleClear s → step s = .next t → callerKeepsLowNibbleClear t

/-- The reset state meets the caller's obligation on F (R21, R77) with whatever the caller then presents that keeps to it (the
inputs to come are the model's own field, log entry 1). -/
def Obligations.ResetMeetsCallerObligation : Prop :=
  ∀ xs : List PortInput,
    (∀ x ∈ xs, ∀ v, inputWrites State.reset.resetImage .f x = some v → v &&& 0x0F#8 = 0x00#8) →
    callerKeepsLowNibbleClear { State.reset with inputs := xs }

/-- R62 under R77: while the caller keeps F's low nibble clear, RD8 F, DEC and ENC in turn give back the whole of F. -/
def Obligations.ClearFlagsSurviveCodec : Prop :=
  ∀ s : State, callerKeepsLowNibbleClear s → ∃ t u v,
    exec (.rd8 .f) s = .next t ∧ exec (.dec (t.rdata.extractLsb' 0 8)) t = .next u ∧
    exec (.enc (u.rdata.extractLsb' 0 4)) u = .next v ∧ v.rdata = s.cells.f.setWidth 16

/-! ## The assembler -/

/-- R46: the command word each mnemonic assembles to, with its control byte and its data. -/
def Obligations.AssemblyOfEachMnemonic : Prop :=
  assembleLine .nop = some ⟨false, 0x000000#24⟩ ∧
  (∀ r, assembleLine (.rd8 r) = some ⟨false, 0x0000#16 ++ rd8Control r⟩) ∧
  (∀ (r : Reg) (v : Byte), assembleLine (.wr8 r v.toNat) = some ⟨false, v.setWidth 16 ++ wr8Control r⟩) ∧
  (∀ p, assembleLine (.rd16 p) = some ⟨false, 0x0000#16 ++ rd16Control p⟩) ∧
  (∀ (p : Pair) (v : Word16), assembleLine (.wr16 p v.toNat) = some ⟨false, v ++ wr16Control p⟩) ∧
  (∀ f : Flags4, assembleLine (.enc f.toNat) = some ⟨false, f.setWidth 16 ++ 0x05#8⟩) ∧
  (∀ b : Byte, assembleLine (.dec b.toNat) = some ⟨false, b.setWidth 16 ++ 0x06#8⟩)

/-- R44: an immediate whose value does not fit its field is refused, never truncated (that the value decides, not the digits
written, is the model's choice, log entry 8). -/
def Obligations.WideImmediatesRefused : Prop :=
  ∀ (r : Reg) (p : Pair) (n : Nat),
    ((assembleLine (.wr8 r n)).isSome ↔ n < 2 ^ 8) ∧ ((assembleLine (.wr16 p n)).isSome ↔ n < 2 ^ 16) ∧
    ((assembleLine (.enc n)).isSome ↔ n < 2 ^ 4) ∧ ((assembleLine (.dec n)).isSome ↔ n < 2 ^ 8) ∧
    ((assembleLine (.word n)).isSome ↔ n < 2 ^ 24)

/-- R44, R45: every well-formed command is written by one line, which assembles to one command word that decodes to it. -/
def Obligations.AssembledCommandDecodes : Prop :=
  ∀ i : Instr, i.wellFormed = true → ∃ x, assembleLine (disassemble i) = some x ∧ x.rst = false ∧ decode x.cmd = i

/-- R44, R45: a line of text that is not blank and assembles stands for exactly one step, a blank or comment line for none (log
entry 7); only RST gives a reset step; a list of lines assembles exactly when every line does, to the lines' steps in order;
and a text is read line by line. -/
def Obligations.OneStepPerLine : Prop :=
  (∀ (cs : List Char) (xs : List PortInput), assembleTextLine cs = some xs → isBlankLine cs = false → xs.length = 1) ∧
  (∀ cs : List Char, isBlankLine cs = true → assembleTextLine cs = some []) ∧
  (∀ cs : List Char, tokens [] cs = [] ↔ isBlankLine cs = true) ∧
  (∀ (line : AsmLine) (x : PortInput), assembleLine line = some x → (x.rst = true ↔ line = .rst)) ∧
  (∀ ls : List (List Char), (∃ xs, assembleLines ls = some xs) ↔ ∀ l ∈ ls, ∃ xs, assembleTextLine l = some xs) ∧
  (∀ (ls : List (List Char)) (xs : List PortInput), assembleLines ls = some xs →
    xs = ls.flatMap fun l => (assembleTextLine l).getD []) ∧
  ∀ ls : List (List Char), ls ≠ [] → (∀ l ∈ ls, '\n' ∉ l) → assemble (['\n'].intercalate ls) = assembleLines ls

/-- R44: a comment changes nothing, whatever stands in it, and neither does the letter case of a mnemonic (in the library's
sense of letter case), for a line read as tokens and for a line of text. -/
def Obligations.CommentAndMnemonicCaseIgnored : Prop :=
  (∀ cs comment : List Char, assembleTextLine (cs ++ ';' :: comment) = assembleTextLine cs) ∧
  (∀ (m m' : List Char) (rest : List AsmToken), m.map Char.toUpper = m'.map Char.toUpper →
    lineOfTokens (.text m :: rest) = lineOfTokens (.text m' :: rest)) ∧
  ∀ m m' rest : List Char, (∀ c ∈ m, c.isAlphanum = true ∨ c = '.') → m.map Char.toUpper = m'.map Char.toUpper →
    assembleTextLine (m ++ ' ' :: rest) = assembleTextLine (m' ++ ' ' :: rest)

/-- R44, R46 as text: each register file mnemonic, in any letter case, with the name of each cell or pair and with each
immediate in hex or binary, is read to the command word of R46; an immediate too wide for its field is refused. (Where the
white space stands is the model's choice, log entry 7, and that an immediate's value decides its width, log entry 8.) -/
def Obligations.TextOfRegisterFileLines : Prop :=
  (∀ m, writesMnemonic m ['N', 'O', 'P'] → assembleTextLine m = some [⟨false, 0x000000#24⟩]) ∧
  (∀ m r, writesMnemonic m ['R', 'D', '8'] →
    assembleTextLine (m ++ ' ' :: [regText r]) = some [⟨false, 0x0000#16 ++ rd8Control r⟩]) ∧
  (∀ m p, writesMnemonic m ['R', 'D', '1', '6'] →
    assembleTextLine (m ++ ' ' :: pairText p) = some [⟨false, 0x0000#16 ++ rd16Control p⟩]) ∧
  (∀ m r t n, writesMnemonic m ['W', 'R', '8'] → writesNumber t n →
    assembleTextLine (m ++ ' ' :: regText r :: ',' :: ' ' :: t) =
      if n < 2 ^ 8 then some [⟨false, BitVec.ofNat 16 n ++ wr8Control r⟩] else none) ∧
  ∀ m p t n, writesMnemonic m ['W', 'R', '1', '6'] → writesNumber t n →
    assembleTextLine (m ++ ' ' :: pairText p ++ ',' :: ' ' :: t) =
      if n < 2 ^ 16 then some [⟨false, BitVec.ofNat 16 n ++ wr16Control p⟩] else none

/-- R44, R46 as text: ENC with an immediate or a flag set, DEC, RST and .word, as for the register file's lines (log entries 7
and 8). -/
def Obligations.TextOfCodecResetAndWordLines : Prop :=
  (∀ m t n, writesMnemonic m ['E', 'N', 'C'] → writesNumber t n →
    assembleTextLine (m ++ ' ' :: t) = if n < 2 ^ 4 then some [⟨false, BitVec.ofNat 16 n ++ 0x05#8⟩] else none) ∧
  (∀ m z n h c, writesMnemonic m ['E', 'N', 'C'] →
    assembleTextLine (m ++ ' ' :: flagSetText z n h c) = some [⟨false, 0x000#12 ++ BitVec.ofBool z ++ BitVec.ofBool n ++
      BitVec.ofBool h ++ BitVec.ofBool c ++ 0x05#8⟩]) ∧
  (∀ m t n, writesMnemonic m ['D', 'E', 'C'] → writesNumber t n →
    assembleTextLine (m ++ ' ' :: t) = if n < 2 ^ 8 then some [⟨false, BitVec.ofNat 16 n ++ 0x06#8⟩] else none) ∧
  (∀ m, writesMnemonic m ['R', 'S', 'T'] → ∃ w, assembleTextLine m = some [⟨true, w⟩]) ∧
  ∀ m t n, writesMnemonic m ['.', 'W', 'O', 'R', 'D'] → writesNumber t n →
    assembleTextLine (m ++ ' ' :: t) = if n < 2 ^ 24 then some [⟨false, BitVec.ofNat 24 n⟩] else none
end

