-- ==== Sys2Proof/Laws/Assembler.lean ====
section
/-! SUPPORT. The laws of the assembler's text: what the tokens of a line are, letter case, and numerals read back. -/

namespace Sys2Proof.Machine

open Sys2Proof.Safety

/-- A character that stands in a text token. -/
def isTextChar (c : Char) : Bool :=
  !(c == ';') && !isBlankChar c && !(c == ',') && !(c == Char.ofNat 123) && !(c == Char.ofNat 125)

/-- Text characters are collected into one token. -/
theorem tokens_text (rest : List Char) : ∀ (cs col : List Char), (∀ c ∈ cs, isTextChar c = true) →
    tokens col (cs ++ rest) = tokens (cs.reverse ++ col) rest
  | [], _, _ => rfl
  | c :: cs, col, h => by
    have hc := h c (List.mem_cons_self ..)
    simp only [isTextChar, Bool.and_eq_true, Bool.not_eq_true'] at hc
    obtain ⟨⟨⟨⟨h1, h2⟩, h3⟩, h4⟩, h5⟩ := hc
    have ih := tokens_text rest cs (c :: col) fun x hx => h x (List.mem_cons_of_mem _ hx)
    simp only [List.cons_append, tokens, h1, h2, h3, h4, h5, Bool.false_eq_true, if_false, ih,
      List.reverse_cons, List.append_assoc, List.nil_append]

/-- The token before the tokens that follow it. -/
theorem flushText_reverse {cs : List Char} (h : cs ≠ []) (rest : List AsmToken) :
    flushText cs.reverse rest = .text cs :: rest := by
  cases hr : cs.reverse with
  | nil => exact absurd (List.reverse_eq_nil_iff.1 hr) h
  | cons c r => simp only [flushText, ← hr, List.reverse_reverse]

/-- A text at the end of a line is one token. -/
theorem tokens_text_end {cs : List Char} (hne : cs ≠ []) (h : ∀ c ∈ cs, isTextChar c = true) :
    tokens [] cs = [.text cs] := by
  have := tokens_text [] cs [] h
  rw [List.append_nil, List.append_nil] at this
  rw [this, tokens, flushText_reverse hne]

/-- A text before a space is one token. -/
theorem tokens_text_space {cs : List Char} (rest : List Char) (hne : cs ≠ []) (h : ∀ c ∈ cs, isTextChar c = true) :
    tokens [] (cs ++ ' ' :: rest) = .text cs :: tokens [] rest := by
  rw [tokens_text _ cs [] h, List.append_nil, ← flushText_reverse hne]
  rfl

/-- A text before a comma is one token. -/
theorem tokens_text_comma {cs : List Char} (rest : List Char) (hne : cs ≠ []) (h : ∀ c ∈ cs, isTextChar c = true) :
    tokens [] (cs ++ ',' :: rest) = .text cs :: .comma :: tokens [] rest := by
  rw [tokens_text _ cs [] h, List.append_nil, ← flushText_reverse hne]
  rfl

theorem tokens_space (rest : List Char) : tokens [] (' ' :: rest) = tokens [] rest := rfl

/-- The assembler's capitals are the library's. -/
theorem capital_eq_toUpper (c : Char) : capital c = c.toUpper := by
  by_cases h : 97 ≤ c.toNat ∧ c.toNat ≤ 122
  · have key : ∀ n < 123, 97 ≤ n → capital (Char.ofNat n) = (Char.ofNat n).toUpper := by decide
    have := key c.toNat (by omega) h.1
    rwa [Char.ofNat_toNat] at this
  · have hv : ¬ ('a'.val ≤ c.val ∧ c.val ≤ 'z'.val) := by
      intro hc
      exact h ⟨UInt32.le_iff_toNat_le.1 hc.1, UInt32.le_iff_toNat_le.1 hc.2⟩
    simp only [capital, h, if_false, Char.toUpper, hv, dite_false]

theorem map_capital (m : List Char) : m.map capital = m.map Char.toUpper :=
  List.map_congr_left fun x _ => capital_eq_toUpper x

/-- Letter case does not make a character a separator. -/
theorem isTextChar_of_toUpper {c : Char} (h : isTextChar c.toUpper = true) : isTextChar c = true := by
  by_contra hc
  have hsep : c = ';' ∨ c = ' ' ∨ c = '\t' ∨ c = '\r' ∨ c = ',' ∨ c = Char.ofNat 123 ∨ c = Char.ofNat 125 := by
    by_contra hn
    simp only [not_or] at hn
    exact hc (by simp [isTextChar, isBlankChar, hn])
  rcases hsep with rfl | rfl | rfl | rfl | rfl | rfl | rfl <;> exact absurd h (by decide)

/-- A mnemonic in any letter case is made of text characters. -/
theorem isTextChar_of_writesMnemonic {m name : List Char} (h : writesMnemonic m name)
    (hn : name.all isTextChar = true) : ∀ c ∈ m, isTextChar c = true := by
  intro c hc
  have hmem : c.toUpper ∈ name := h ▸ List.mem_map_of_mem hc
  exact isTextChar_of_toUpper (List.all_eq_true.1 hn _ hmem)

theorem ne_nil_of_writesMnemonic {m name : List Char} (h : writesMnemonic m name) (hn : name ≠ []) : m ≠ [] := by
  rintro rfl
  exact hn h.symm

/-- A line whose mnemonic is written in any letter case is read as the mnemonic in capitals. -/
theorem lineOfTokens_text {m name : List Char} (h : writesMnemonic m name) (rest : List AsmToken) :
    lineOfTokens (.text m :: rest) = lineOfMnemonic name rest := by
  rw [lineOfTokens, map_capital, show m.map Char.toUpper = name from h]

/-- A line that has a token, from its tokens. -/
theorem assembleTextLine_of_tokens {cs : List Char} {t : AsmToken} {ts : List AsmToken} (h : tokens [] cs = t :: ts) :
    assembleTextLine cs = (lineOfTokens (t :: ts)).bind fun line => (assembleLine line).map fun x => [x] := by
  simp only [assembleTextLine, h]
  cases lineOfTokens (t :: ts) <;> rfl

/-- A digit of either base is read back. -/
theorem digitOf_digitText : (∀ d < 16, digitOf 16 (digitText d) = some d) ∧ ∀ d < 2, digitOf 2 (digitText d) = some d := by
  decide

theorem digitsValue_append (base : Nat) (c : Char) : ∀ (cs : List Char) (acc : Nat),
    digitsValue base acc (cs ++ [c]) =
      (digitsValue base acc cs).bind fun v => (digitOf base c).map fun d => base * v + d
  | [], acc => by
    simp only [List.nil_append, digitsValue, Option.bind_some]
    cases digitOf base c <;> rfl
  | x :: xs, acc => by
    simp only [List.cons_append, digitsValue]
    cases digitOf base x with
    | none => rfl
    | some d => exact digitsValue_append base c xs _

/-- A numeral is read back to the number it holds. -/
theorem digitsValue_numeral {base : Nat} (hb : 0 < base) (hd : ∀ d < base, digitOf base (digitText d) = some d) :
    ∀ k n : Nat, digitsValue base 0 (numeral base k n) = some (n % base ^ k)
  | 0, n => by simp [numeral, digitsValue, Nat.mod_one]
  | k + 1, n => by
    rw [numeral, digitsValue_append, digitsValue_numeral hb hd k (n / base), hd _ (Nat.mod_lt n hb)]
    simp only [Option.bind_some, Option.map_some, Option.some.injEq]
    rw [Nat.pow_succ, Nat.mul_comm (base ^ k) base, Nat.mod_mul, Nat.add_comm]

/-- A numeral is made of text characters. -/
theorem isTextChar_numeral {base : Nat} (hb : 0 < base) (h16 : base ≤ 16) :
    ∀ k n : Nat, ∀ c ∈ numeral base k n, isTextChar c = true
  | 0, _, _, hc => nomatch hc
  | k + 1, n, c, hc => by
    rcases List.mem_append.1 hc with h | h
    · exact isTextChar_numeral hb h16 k _ c h
    · have key : ∀ d < 16, isTextChar (digitText d) = true := by decide
      rw [List.mem_singleton.1 h]
      exact key _ (Nat.lt_of_lt_of_le (Nat.mod_lt n hb) h16)

theorem numeral_ne_nil (base k n : Nat) : numeral base (k + 1) n ≠ [] := by simp [numeral]

/-- An immediate in hex or binary is read to the number it writes. -/
theorem immediateOfText_of_writesNumber {t : List Char} {n : Nat} (h : writesNumber t n) : immediateOfText t = some n := by
  obtain ⟨k, hk, h | h⟩ := h
  all_goals
    obtain ⟨rfl, hn⟩ := h
    obtain ⟨j, rfl⟩ : ∃ j, k = j + 1 := ⟨k - 1, by omega⟩
    obtain ⟨c, cs, hcs⟩ := List.exists_cons_of_ne_nil (numeral_ne_nil _ j n)
    rw [hcs, immediateOfText, ← hcs]
  · rw [digitsValue_numeral (by decide) digitOf_digitText.1, Nat.mod_eq_of_lt hn]
  · rw [digitsValue_numeral (by decide) digitOf_digitText.2, Nat.mod_eq_of_lt hn]

/-- An immediate is one text token. -/
theorem isTextChar_of_writesNumber {t : List Char} {n : Nat} (h : writesNumber t n) :
    t ≠ [] ∧ ∀ c ∈ t, isTextChar c = true := by
  obtain ⟨k, -, h | h⟩ := h
  all_goals
    obtain ⟨rfl, -⟩ := h
    refine ⟨List.cons_ne_nil _ _, fun c hc => ?_⟩
    rcases List.mem_cons.1 hc with rfl | hc
    · decide
    rcases List.mem_cons.1 hc with rfl | hc
    · decide
  · exact isTextChar_numeral (by decide) (by decide) k n c hc
  · exact isTextChar_numeral (by decide) (by decide) k n c hc

end Sys2Proof.Machine
end

