-- ==== Sys2Proof/Laws/Decode.lean ====
section
/-! SUPPORT. The fields of a command word that is put together from its fields, and the selectors read back. -/

namespace Sys2Proof

@[simp] theorem cmdOp_cmdWord (d : Word16) (sel op : BitVec 3) : cmdOp (cmdWord d sel op) = op := by
  apply BitVec.eq_of_getLsbD_eq
  intro i hi
  simp only [cmdOp, cmdWord, BitVec.getLsbD_extractLsb', BitVec.getLsbD_append, hi, Nat.zero_add,
    decide_true, Bool.true_and, if_true]

@[simp] theorem cmdSel_cmdWord (d : Word16) (sel op : BitVec 3) : cmdSel (cmdWord d sel op) = sel := by
  apply BitVec.eq_of_getLsbD_eq
  intro i hi
  have h1 : ¬ (3 + i < 3) := by omega
  have h2 : 3 + i - 3 = i := by omega
  simp only [cmdSel, cmdWord, BitVec.getLsbD_extractLsb', BitVec.getLsbD_append, hi, h1, h2,
    decide_true, Bool.true_and, if_true, if_false]

@[simp] theorem cmdRsv_cmdWord (d : Word16) (sel op : BitVec 3) : cmdRsv (cmdWord d sel op) = 0b00#2 := by
  apply BitVec.eq_of_getLsbD_eq
  intro i hi
  have h1 : ¬ (6 + i < 3) := by omega
  have h2 : ¬ (6 + i - 3 < 3) := by omega
  have h3 : 6 + i - 3 - 3 = i := by omega
  simp only [cmdRsv, cmdWord, BitVec.getLsbD_extractLsb', BitVec.getLsbD_append, hi, h1, h2, h3,
    decide_true, Bool.true_and, if_true, if_false]

@[simp] theorem cmdData_cmdWord (d : Word16) (sel op : BitVec 3) : cmdData (cmdWord d sel op) = d := by
  apply BitVec.eq_of_getLsbD_eq
  intro i hi
  have h1 : ¬ (8 + i < 3) := by omega
  have h2 : ¬ (8 + i - 3 < 3) := by omega
  have h3 : ¬ (8 + i - 3 - 3 < 2) := by omega
  have h4 : 8 + i - 3 - 3 - 2 = i := by omega
  simp only [cmdData, cmdWord, BitVec.getLsbD_extractLsb', BitVec.getLsbD_append, hi, h1, h2, h3, h4,
    decide_true, Bool.true_and, if_false]

/-- A command word is its 16 data bits above its control byte. -/
theorem data_append_control (w : Cmd) : cmdData w ++ w.extractLsb' 0 8 = w := by
  apply BitVec.eq_of_getLsbD_eq
  intro i hi
  simp only [cmdData, BitVec.getLsbD_append, BitVec.getLsbD_extractLsb', Nat.zero_add]
  split
  case isTrue h => simp only [h, decide_true, Bool.true_and]
  case isFalse h =>
    have h1 : i - 8 < 16 := by omega
    have h2 : 8 + (i - 8) = i := by omega
    simp only [h1, h2, decide_true, Bool.true_and]

theorem exists_data_control (w : Cmd) : ∃ (d : Word16) (c : Byte), w = d ++ c :=
  ⟨_, _, (data_append_control w).symm⟩

/-- A field inside the control byte does not see the data bits. -/
theorem extract_control (d : Word16) (c : Byte) (lo n : Nat) (h : lo + n ≤ 8) :
    (d ++ c).extractLsb' lo n = c.extractLsb' lo n := by
  apply BitVec.eq_of_getLsbD_eq
  intro i hi
  have h1 : lo + i < 8 := by omega
  simp only [BitVec.getLsbD_extractLsb', BitVec.getLsbD_append, h1, if_true]

theorem cmdOp_append (d : Word16) (c : Byte) : cmdOp (d ++ c) = c.extractLsb' 0 3 := extract_control d c 0 3 (by decide)
theorem cmdSel_append (d : Word16) (c : Byte) : cmdSel (d ++ c) = c.extractLsb' 3 3 := extract_control d c 3 3 (by decide)
theorem cmdRsv_append (d : Word16) (c : Byte) : cmdRsv (d ++ c) = c.extractLsb' 6 2 := extract_control d c 6 2 (by decide)

theorem cmdData_append (d : Word16) (c : Byte) : cmdData (d ++ c) = d := by
  apply BitVec.eq_of_getLsbD_eq
  intro i hi
  have h1 : ¬ (8 + i < 8) := by omega
  have h2 : 8 + i - 8 = i := by omega
  simp only [cmdData, BitVec.getLsbD_extractLsb', BitVec.getLsbD_append, hi, h1, h2, decide_true,
    Bool.true_and, if_false]

/-- The one command format as data bits above a control byte. -/
theorem cmdWord_eq_append (d : Word16) (sel op : BitVec 3) : cmdWord d sel op = d ++ (0b00#2 ++ sel ++ op) := by
  have h : (cmdWord d sel op).extractLsb' 0 8 = 0b00#2 ++ sel ++ op := by
    apply BitVec.eq_of_getLsbD_eq
    intro i hi
    simp only [cmdWord, BitVec.getLsbD_extractLsb', BitVec.getLsbD_append, hi, Nat.zero_add, decide_true,
      Bool.true_and]
    split
    · rfl
    · split
      · rfl
      · have h2 : i - 3 - 3 < 2 := by omega
        simp only [h2, if_true]
  rw [← data_append_control (cmdWord d sel op), cmdData_cmdWord, h]

@[simp] theorem regOfSel_selOfReg (r : Reg) : regOfSel (selOfReg r) = r := by cases r <;> rfl

theorem selOfReg_regOfSel : ∀ n : BitVec 3, selOfReg (regOfSel n) = n := by decide

@[simp] theorem pairOfSel_selOfPair (p : Pair) : pairOfSel ((selOfPair p).extractLsb' 0 2) = p := by
  cases p <;> decide

end Sys2Proof
end

