-- ==== Sys2Proof/Laws/Operands.lean ====
section
/-! SUPPORT. The laws of cell and pair access: read after write, independence, and what a pair write leaves in each cell. -/

namespace Sys2Proof.Machine

@[simp] theorem Cells.get_set_same (S : Cells) (r : Reg) (v : Byte) : (S.set r v).get r = v := by
  cases r <;> rfl

theorem Cells.get_set_of_ne (S : Cells) {q r : Reg} (v : Byte) (h : q ≠ r) : (S.set r v).get q = S.get q := by
  cases r <;> cases q <;> first | rfl | exact absurd rfl h

theorem Cells.get_set (S : Cells) (q r : Reg) (v : Byte) :
    (S.set r v).get q = if q = r then v else S.get q := by
  split
  case isTrue h => rw [h, Cells.get_set_same]
  case isFalse h => exact Cells.get_set_of_ne S v h

theorem Cells.ext_get {S T : Cells} (h : ∀ q, S.get q = T.get q) : S = T := by
  cases S; cases T
  simpa [Cells.get] using And.intro (h .a) ⟨h .b, h .c, h .d, h .e, h .f, h .h, h .l⟩

@[simp] theorem Cells.get_fill (v : Reg → Byte) (r : Reg) : (Cells.fill v).get r = v r := by
  cases r <;> rfl

theorem pairHi_ne_pairLo (p : Pair) : pairHi p ≠ pairLo p := by cases p <;> decide

@[simp] theorem Cells.get_setPair_lo (S : Cells) (p : Pair) (v : Word16) :
    (S.setPair p v).get (pairLo p) = lowByte v := by simp [Cells.setPair]

@[simp] theorem Cells.get_setPair_hi (S : Cells) (p : Pair) (v : Word16) :
    (S.setPair p v).get (pairHi p) = highByte v := by
  simp [Cells.setPair, Cells.get_set_of_ne _ _ (pairHi_ne_pairLo p)]

theorem Cells.get_setPair_of_ne (S : Cells) {q : Reg} {p : Pair} (v : Word16) (hh : q ≠ pairHi p)
    (hl : q ≠ pairLo p) : (S.setPair p v).get q = S.get q := by
  simp [Cells.setPair, Cells.get_set_of_ne _ _ hl, Cells.get_set_of_ne _ _ hh]

theorem Cells.get_setPair (S : Cells) (q : Reg) (p : Pair) (v : Word16) :
    (S.setPair p v).get q =
      if q = pairHi p then highByte v else if q = pairLo p then lowByte v else S.get q := by
  split
  case isTrue h => rw [h, Cells.get_setPair_hi]
  case isFalse hh =>
    split
    case isTrue h => rw [h, Cells.get_setPair_lo]
    case isFalse hl => exact Cells.get_setPair_of_ne S v hh hl

/-- The two bytes of a word put together again. -/
@[simp] theorem highByte_append_lowByte (v : Word16) : highByte v ++ lowByte v = v := by
  apply BitVec.eq_of_getLsbD_eq
  intro i hi
  simp only [highByte, lowByte, BitVec.getLsbD_append, BitVec.getLsbD_extractLsb', Nat.zero_add]
  split
  case isTrue h => simp only [h, decide_true, Bool.true_and]
  case isFalse h =>
    have h1 : i - 8 < 8 := by omega
    have h2 : 8 + (i - 8) = i := by omega
    simp only [h1, h2, decide_true, Bool.true_and]

@[simp] theorem highByte_append (x y : Byte) : highByte (x ++ y) = x := by
  apply BitVec.eq_of_getLsbD_eq
  intro i hi
  have h1 : ¬ (8 + i < 8) := by omega
  have h2 : 8 + i - 8 = i := by omega
  simp only [highByte, BitVec.getLsbD_extractLsb', BitVec.getLsbD_append, hi, h1, h2, decide_true,
    Bool.true_and, if_false]

@[simp] theorem lowByte_append (x y : Byte) : lowByte (x ++ y) = y := by
  apply BitVec.eq_of_getLsbD_eq
  intro i hi
  simp only [lowByte, BitVec.getLsbD_extractLsb', BitVec.getLsbD_append, hi, Nat.zero_add, decide_true,
    Bool.true_and, if_true]

end Sys2Proof.Machine
end

