-- ==== Sys2Proof/Laws/State.lean ====
section
/-! SUPPORT. One lemma per field per update of the state, true by rfl, so that no proof unfolds a record update. -/

namespace Sys2Proof.Machine

variable (s : State)

@[simp] theorem State.drive_cells (v : Word16) : (s.drive v).cells = s.cells := rfl
@[simp] theorem State.drive_rdata (v : Word16) : (s.drive v).rdata = v := rfl
@[simp] theorem State.drive_resetImage (v : Word16) : (s.drive v).resetImage = s.resetImage := rfl
@[simp] theorem State.drive_inputs (v : Word16) : (s.drive v).inputs = s.inputs := rfl

@[simp] theorem State.writeCell_cells (r : Reg) (v : Byte) : (s.writeCell r v).cells = s.cells.set r v := rfl
@[simp] theorem State.writeCell_rdata (r : Reg) (v : Byte) : (s.writeCell r v).rdata = s.rdata := rfl
@[simp] theorem State.writeCell_resetImage (r : Reg) (v : Byte) : (s.writeCell r v).resetImage = s.resetImage := rfl
@[simp] theorem State.writeCell_inputs (r : Reg) (v : Byte) : (s.writeCell r v).inputs = s.inputs := rfl

@[simp] theorem State.writePair_cells (p : Pair) (v : Word16) : (s.writePair p v).cells = s.cells.setPair p v := rfl
@[simp] theorem State.writePair_rdata (p : Pair) (v : Word16) : (s.writePair p v).rdata = s.rdata := rfl
@[simp] theorem State.writePair_resetImage (p : Pair) (v : Word16) : (s.writePair p v).resetImage = s.resetImage := rfl
@[simp] theorem State.writePair_inputs (p : Pair) (v : Word16) : (s.writePair p v).inputs = s.inputs := rfl

@[simp] theorem State.resetStep_cells : s.resetStep.cells = s.resetImage := rfl
@[simp] theorem State.resetStep_rdata : s.resetStep.rdata = 0x0000#16 := rfl
@[simp] theorem State.resetStep_resetImage : s.resetStep.resetImage = s.resetImage := rfl
@[simp] theorem State.resetStep_inputs : s.resetStep.inputs = s.inputs := rfl

@[simp] theorem State.consumeInput_cells : s.consumeInput.cells = s.cells := rfl
@[simp] theorem State.consumeInput_rdata : s.consumeInput.rdata = s.rdata := rfl
@[simp] theorem State.consumeInput_resetImage : s.consumeInput.resetImage = s.resetImage := rfl
@[simp] theorem State.consumeInput_inputs : s.consumeInput.inputs = s.inputs.tail := rfl

@[simp] theorem State.presentCmd_cells (w : Cmd) : (s.presentCmd w).cells = s.cells := rfl
@[simp] theorem State.presentCmd_rdata (w : Cmd) : (s.presentCmd w).rdata = s.rdata := rfl
@[simp] theorem State.presentCmd_resetImage (w : Cmd) : (s.presentCmd w).resetImage = s.resetImage := rfl
@[simp] theorem State.presentCmd_inputs (w : Cmd) : (s.presentCmd w).inputs = ⟨false, w⟩ :: s.inputs := rfl

@[simp] theorem State.readCell_eq (r : Reg) : s.readCell r = s.cells.get r := rfl
@[simp] theorem State.readPair_eq (p : Pair) : s.readPair p = s.cells.getPair p := rfl

theorem State.nextInput_of_cons {x : PortInput} {rest : List PortInput} (h : s.inputs = x :: rest) :
    s.nextInput = x := by simp [State.nextInput, h]

theorem State.nextInput_of_nil (h : s.inputs = []) : s.nextInput = idleInput := by simp [State.nextInput, h]

theorem State.consumeInput_of_cons {x : PortInput} {rest : List PortInput} (h : s.inputs = x :: rest) :
    s.consumeInput = { s with inputs := rest } := by simp [State.consumeInput, h]

theorem State.consumeInput_of_nil (h : s.inputs = []) : s.consumeInput = s := by
  cases s; simp_all [State.consumeInput]

end Sys2Proof.Machine
end

