-- ==== Sys2Proof/Laws/Exec.lean ====
section
/-! SUPPORT. What each meaning does, as one equation, and what one step of the ports can do: the lemmas that proofs cite instead of unfolding the machine. -/

namespace Sys2Proof.Machine

@[simp] theorem exec_nop (s : State) : exec .nop s = .next (s.drive 0x0000#16) := rfl
@[simp] theorem exec_rd8 (r : Reg) (s : State) : exec (.rd8 r) s = .next (s.drive ((s.cells.get r).setWidth 16)) := rfl
@[simp] theorem exec_wr8 (r : Reg) (v : Byte) (s : State) :
    exec (.wr8 r v) s = .next ((s.writeCell r v).drive 0x0000#16) := rfl
@[simp] theorem exec_rd16 (p : Pair) (s : State) : exec (.rd16 p) s = .next (s.drive (s.cells.getPair p)) := rfl
@[simp] theorem exec_wr16 (p : Pair) (v : Word16) (s : State) :
    exec (.wr16 p v) s = .next ((s.writePair p v).drive 0x0000#16) := rfl
@[simp] theorem exec_enc (f : Flags4) (s : State) :
    exec (.enc f) s = .next (s.drive ((flagsEncode f).setWidth 16)) := rfl
@[simp] theorem exec_dec (b : Byte) (s : State) :
    exec (.dec b) s = .next (s.drive ((flagsDecode b).setWidth 16)) := rfl
@[simp] theorem exec_reserved (w : Cmd) (s : State) : exec (.reserved w) s = .next (s.drive 0x0000#16) := rfl

/-- Everything a command can do: new cells and a new output, and nothing else of the state. -/
theorem exec_cases (i : Instr) (s : State) :
    ∃ (S : Cells) (v : Word16), exec i s = .next { s with cells := S, rdata := v } := by
  cases i <;> exact ⟨_, _, rfl⟩

@[simp] theorem runInput_reset (w : Cmd) (s : State) : runInput ⟨true, w⟩ s = .next s.resetStep := rfl
@[simp] theorem runInput_command (w : Cmd) (s : State) : runInput ⟨false, w⟩ s = exec (decode w) s := rfl

/-- Everything one value of the ports can do: new cells and a new output, and nothing else of the state. -/
theorem runInput_cases (x : PortInput) (s : State) :
    ∃ (S : Cells) (v : Word16), runInput x s = .next { s with cells := S, rdata := v } := by
  obtain ⟨_ | _, w⟩ := x
  · exact exec_cases (decode w) s
  · exact ⟨s.resetImage, 0x0000#16, rfl⟩

/-- One more step of a run. -/
theorem run_succ_of_next {s t : State} (n : Nat) (h : step s = .next t) : core.run (n + 1) s = core.run n t := by
  simp only [Host.Core.run, show core.step s = .next t from h]

end Sys2Proof.Machine
end

