-- ==== Sys2Proof/Laws/PerInstr.lean ====
section
/-! SUPPORT. For every command, as syntax: its word is a word of its row of spec/opcode_table.json (the row's match under the row's mask; for the reserved words, spec/30_encoding.md R41, the fixed bits or none of the other rows'). -/

namespace Sys2Proof.Laws.EncodesRow

/-- The mask and match of a command's row in the opcode table. -/
def rowOfTable : Instr → Cmd × Cmd
  | .nop => (0x0000FF#24, 0x000000#24)
  | .rd8 _ => (0x0000C7#24, 0x000001#24)
  | .wr8 _ _ => (0x0000C7#24, 0x000002#24)
  | .rd16 _ => (0x0000E7#24, 0x000003#24)
  | .wr16 _ _ => (0x0000E7#24, 0x000004#24)
  | .enc _ => (0x0000FF#24, 0x000005#24)
  | .dec _ => (0x0000FF#24, 0x000006#24)
  | .reserved _ => (0x000007#24, 0x000007#24)

/-- A well-formed command's word matches its row; the reserved words may also match no row at all. -/
def Statement (i : Instr) : Prop :=
  i.wellFormed = true → encode i &&& (rowOfTable i).1 = (rowOfTable i).2 ∨ reservedByRsv (encode i) = true ∨
    reservedBySel (encode i) = true ∨ reservedBySelHigh (encode i) = true

/-- Putting data bits above a control byte does not touch the control byte. -/
theorem cmdWord_and_control (d : Word16) (sel op : BitVec 3) (m : BitVec 8) :
    cmdWord d sel op &&& (0x0000#16 ++ m) = 0x0000#16 ++ ((0b00#2 ++ sel ++ op) &&& m) := by
  apply BitVec.eq_of_getLsbD_eq
  intro i hi
  rcases Nat.lt_or_ge i 8 with h | h
  · simp only [cmdWord, BitVec.getLsbD_and, BitVec.getLsbD_append, h, if_true]
    split
    · rfl
    · split
      · rfl
      · have h2 : i - 3 - 3 < 2 := by omega
        simp [h2]
  · have h8 : ¬ i < 8 := by omega
    simp only [cmdWord, BitVec.getLsbD_and, BitVec.getLsbD_append, h8, if_false, BitVec.getLsbD_zero,
      Bool.and_false]

theorem nop : Statement .nop := fun _ => Or.inl (by decide)
theorem rd8 (r : Reg) : Statement (.rd8 r) := fun _ => Or.inl (by cases r <;> decide)
theorem wr8 (r : Reg) (v : Byte) : Statement (.wr8 r v) := fun _ =>
  Or.inl ((cmdWord_and_control _ _ _ 0xC7#8).trans (by cases r <;> rfl))
theorem rd16 (p : Pair) : Statement (.rd16 p) := fun _ => Or.inl (by cases p <;> decide)
theorem wr16 (p : Pair) (v : Word16) : Statement (.wr16 p v) := fun _ =>
  Or.inl ((cmdWord_and_control _ _ _ 0xE7#8).trans (by cases p <;> rfl))
theorem enc (f : Flags4) : Statement (.enc f) := fun _ =>
  Or.inl ((cmdWord_and_control _ _ _ 0xFF#8).trans (rfl))
theorem dec (b : Byte) : Statement (.dec b) := fun _ =>
  Or.inl ((cmdWord_and_control _ _ _ 0xFF#8).trans (rfl))
theorem reserved (w : Cmd) : Statement (.reserved w) := by
  intro h
  simp only [Instr.wellFormed, isReservedWord, Bool.or_eq_true] at h
  rcases h with ((h | h) | h) | h
  · refine Or.inl ?_
    have h7 : w.extractLsb' 0 3 = 0b111#3 := by simpa [reservedByOp] using h
    apply BitVec.eq_of_getLsbD_eq
    intro i hi
    rcases Nat.lt_or_ge i 3 with h3 | h3
    · have hb := congrArg (fun v : BitVec 3 => v.getLsbD i) h7
      simp only [BitVec.getLsbD_extractLsb', h3, decide_true, Bool.true_and, Nat.zero_add] at hb
      have hi3 : i = 0 ∨ i = 1 ∨ i = 2 := by omega
      rcases hi3 with rfl | rfl | rfl <;> simpa [encode, rowOfTable] using hb
    · have hz : (0x000007#24).getLsbD i = false := by
        have : (0x000007#24) = (0b111#3).setWidth 24 := by decide
        rw [this, BitVec.getLsbD_setWidth, BitVec.getLsbD_of_ge _ _ h3]
        simp
      simp only [rowOfTable, BitVec.getLsbD_and, hz, Bool.and_false]
  · exact Or.inr (Or.inl h)
  · exact Or.inr (Or.inr (Or.inl h))
  · exact Or.inr (Or.inr (Or.inr h))

end Sys2Proof.Laws.EncodesRow
end

