-- ==== Sys2Proof/Laws/Words.lean ====
section
/-! SUPPORT. The inversion lemma for command words: every word is reserved or is data bits above one of the control bytes of spec/30_encoding.md R46; and the table of pairs in the claims' terms and the machine's. -/

namespace Sys2Proof

open Sys2Proof.Machine Sys2Proof.Safety

theorem isReservedWord_append (d : Word16) (c : Byte) :
    isReservedWord (d ++ c) = isReservedWord (0x0000#16 ++ c) := by
  have h5 : ∀ e : Word16, (e ++ c).getLsbD 5 = c.getLsbD 5 := by
    intro e; simp only [BitVec.getLsbD_append, show (5 : Nat) < 8 by decide, if_true]
  simp only [isReservedWord, reservedByOp, reservedByRsv, reservedBySel, reservedBySelHigh, h5,
    extract_control _ c 0 3 (by decide), extract_control _ c 3 3 (by decide), extract_control _ c 6 2 (by decide)]

/-- Every control byte is reserved or one of R46's. -/
theorem control_cases (c : Byte) :
    isReservedWord (0x0000#16 ++ c) = true ∨ c = 0x00#8 ∨ (∃ r, c = rd8Control r) ∨ (∃ r, c = wr8Control r) ∨
      (∃ p, c = rd16Control p) ∨ (∃ p, c = wr16Control p) ∨ c = 0x05#8 ∨ c = 0x06#8 := by
  have key : ∀ c : Byte, isReservedWord (0x0000#16 ++ c) = true ∨ c = 0x00#8 ∨ c ∈ regTable.map rd8Control ∨
      c ∈ regTable.map wr8Control ∨ c ∈ pairTable.map rd16Control ∨ c ∈ pairTable.map wr16Control ∨
      c = 0x05#8 ∨ c = 0x06#8 := by decide
  rcases key c with h | h | h | h | h | h | h | h
  · exact Or.inl h
  · exact Or.inr (Or.inl h)
  · obtain ⟨r, -, hr⟩ := List.mem_map.1 h
    exact Or.inr (Or.inr (Or.inl ⟨r, hr.symm⟩))
  · obtain ⟨r, -, hr⟩ := List.mem_map.1 h
    exact Or.inr (Or.inr (Or.inr (Or.inl ⟨r, hr.symm⟩)))
  · obtain ⟨p, -, hp⟩ := List.mem_map.1 h
    exact Or.inr (Or.inr (Or.inr (Or.inr (Or.inl ⟨p, hp.symm⟩))))
  · obtain ⟨p, -, hp⟩ := List.mem_map.1 h
    exact Or.inr (Or.inr (Or.inr (Or.inr (Or.inr (Or.inl ⟨p, hp.symm⟩)))))
  · exact Or.inr (Or.inr (Or.inr (Or.inr (Or.inr (Or.inr (Or.inl h))))))
  · exact Or.inr (Or.inr (Or.inr (Or.inr (Or.inr (Or.inr (Or.inr h))))))

/-- Every command word is reserved or a word of one of the seven operations. -/
theorem word_cases (w : Cmd) :
    isReservedWord w = true ∨ ∃ d : Word16, w = d ++ 0x00#8 ∨ (∃ r, w = d ++ rd8Control r) ∨
      (∃ r, w = d ++ wr8Control r) ∨ (∃ p, w = d ++ rd16Control p) ∨ (∃ p, w = d ++ wr16Control p) ∨
      w = d ++ 0x05#8 ∨ w = d ++ 0x06#8 := by
  obtain ⟨d, c, rfl⟩ := exists_data_control w
  rcases control_cases c with h | rfl | ⟨r, rfl⟩ | ⟨r, rfl⟩ | ⟨p, rfl⟩ | ⟨p, rfl⟩ | rfl | rfl
  · exact Or.inl ((isReservedWord_append d c).trans h)
  · exact Or.inr ⟨d, Or.inl rfl⟩
  · exact Or.inr ⟨d, Or.inr (Or.inl ⟨r, rfl⟩)⟩
  · exact Or.inr ⟨d, Or.inr (Or.inr (Or.inl ⟨r, rfl⟩))⟩
  · exact Or.inr ⟨d, Or.inr (Or.inr (Or.inr (Or.inl ⟨p, rfl⟩)))⟩
  · exact Or.inr ⟨d, Or.inr (Or.inr (Or.inr (Or.inr (Or.inl ⟨p, rfl⟩))))⟩
  · exact Or.inr ⟨d, Or.inr (Or.inr (Or.inr (Or.inr (Or.inr (Or.inl rfl)))))⟩
  · exact Or.inr ⟨d, Or.inr (Or.inr (Or.inr (Or.inr (Or.inr (Or.inr rfl)))))⟩

/-- A mask inside the control byte does not see the data bits. -/
theorem and_control (d : Word16) (c m : Byte) : (d ++ c) &&& (0x0000#16 ++ m) = 0x0000#16 ++ (c &&& m) := by
  apply BitVec.eq_of_getLsbD_eq
  intro i hi
  simp only [BitVec.getLsbD_and, BitVec.getLsbD_append]
  split <;> simp

/-- The data bits, shifted down. -/
theorem shift_data (d : Word16) (c : Byte) : ((d ++ c) >>> 8).setWidth 16 = d := by
  apply BitVec.eq_of_getLsbD_eq
  intro i hi
  have h1 : ¬ (8 + i < 8) := by omega
  have h2 : 8 + i - 8 = i := by omega
  simp only [BitVec.getLsbD_setWidth, BitVec.getLsbD_ushiftRight, BitVec.getLsbD_append, hi, h1, h2,
    decide_true, Bool.true_and, if_false]

/-- The selector, shifted down and masked. -/
theorem shift_selector (d : Word16) (c : Byte) :
    ((d ++ c) >>> 3) &&& 0x000007#24 = 0x0000#16 ++ ((c >>> 3) &&& 0x07#8) := by
  apply BitVec.eq_of_getLsbD_eq
  intro i hi
  rcases Nat.lt_or_ge i 3 with h | h
  · have h1 : 3 + i < 8 := by omega
    have h2 : i < 8 := by omega
    have h3 : (0x000007#24).getLsbD i = (0x07#8).getLsbD i := by
      have hi3 : i = 0 ∨ i = 1 ∨ i = 2 := by omega
      rcases hi3 with rfl | rfl | rfl <;> rfl
    simp only [BitVec.getLsbD_and, BitVec.getLsbD_ushiftRight, BitVec.getLsbD_append, h1, h2, h3, if_true]
  · have h24 : (0x000007#24).getLsbD i = false := by
      rw [show (0x000007#24) = (0b111#3).setWidth 24 by decide, BitVec.getLsbD_setWidth,
        BitVec.getLsbD_of_ge _ _ h, Bool.and_false]
    have h8 : (0x07#8).getLsbD i = false := by
      rw [show (0x07#8) = (0b111#3).setWidth 8 by decide, BitVec.getLsbD_setWidth,
        BitVec.getLsbD_of_ge _ _ h, Bool.and_false]
    simp only [BitVec.getLsbD_and, BitVec.getLsbD_append, h24, h8, Bool.and_false, BitVec.getLsbD_zero, ite_self]

theorem pairCells_fst (p : Pair) : (pairCells p).1 = pairHi p := by cases p <;> rfl
theorem pairCells_snd (p : Pair) : (pairCells p).2 = pairLo p := by cases p <;> rfl

/-- R14's shift form of a pair value is the concatenation. -/
theorem pairByShift_eq_append (x y : Byte) : pairByShift x y = x ++ y := by
  apply BitVec.eq_of_getLsbD_eq
  intro i hi
  simp only [pairByShift, BitVec.getLsbD_or, BitVec.getLsbD_shiftLeft, BitVec.getLsbD_setWidth,
    BitVec.getLsbD_append, hi, decide_true, Bool.true_and]
  split
  case isTrue h => simp only [h, decide_true, Bool.not_true, Bool.false_and, Bool.false_or]
  case isFalse h =>
    have h1 : i - 8 < 16 := by omega
    simp only [h, h1, decide_false, decide_true, Bool.not_false, Bool.true_and,
      BitVec.getLsbD_of_ge y i (by omega), Bool.or_false]

end Sys2Proof
end

