-- ==== Sys2Proof/Tests/Slice0.lean ====
section
/-! SUPPORT. The model's own tests, expected values from spec/95_test_vectors.md and the rules' examples, and for each statement with hypotheses a witness that meets them. -/

namespace Sys2Proof.Tests

open Sys2Proof.Machine Sys2Proof.Safety

/-- Start state of spec/95_test_vectors.md section 2: `11 22 33 44 55 66 77 88`. -/
def sampleCells : Cells := ⟨0x11#8, 0x22#8, 0x33#8, 0x44#8, 0x55#8, 0x66#8, 0x77#8, 0x88#8⟩

/-- The sample cells with a list of port inputs to come; the output of the step before is not 0. -/
def sample (xs : List PortInput) : State := { State.reset with cells := sampleCells, rdata := 0xDEAD#16, inputs := xs }

/-- The cells and the output after a step, none if it stopped. -/
def seen : Result → Option (Cells × Word16)
  | .next t => some (t.cells, t.rdata)
  | .fault _ => none
  | .refused _ => none

/-- The cells and the output after one step from the sample cells with this word on the port. -/
def afterWord (w : Cmd) : Option (Cells × Word16) := seen (step (sample [⟨false, w⟩]))

/-! ## Well-formedness: a term each clause refuses -/

theorem test_wf_refuses_nop_word : Instr.wellFormed (.reserved 0x123400#24) = false := by decide
theorem test_wf_refuses_read_word : Instr.wellFormed (.reserved 0x000001#24) = false := by decide
theorem test_wf_refuses_pair_word : Instr.wellFormed (.reserved 0x00001B#24) = false := by decide
theorem test_wf_refuses_codec_word : Instr.wellFormed (.reserved 0x000A05#24) = false := by decide
theorem test_reserved_by_op_only : reservedByOp 0x000007#24 = true ∧ reservedByOp 0x000006#24 = false := by decide
theorem test_reserved_by_rsv_only : reservedByRsv 0x000041#24 = true ∧ reservedByRsv 0x000001#24 = false := by decide
theorem test_reserved_by_sel_only : reservedBySel 0x000F0D#24 = true ∧ reservedBySel 0x000F05#24 = false := by decide
theorem test_reserved_by_sel_high_only :
    reservedBySelHigh 0x000023#24 = true ∧ reservedBySelHigh 0x00001B#24 = false := by decide

/-! ## Decoding: each constructor's word written out in bits (R33, and the encodings of spec/opcode_table.json) -/

theorem test_decode_nop : decode 0b0000000000000000_00_000_000#24 = .nop := by decide
theorem test_decode_rd8 : decode 0b0000000000000000_00_101_001#24 = .rd8 .f := by decide
theorem test_decode_wr8 : decode 0b0000000010110000_00_101_010#24 = .wr8 .f 0xB0#8 := by decide
theorem test_decode_rd16 : decode 0b0000000000000000_00_010_011#24 = .rd16 .de := by decide
theorem test_decode_wr16 : decode 0b0001001000110100_00_001_100#24 = .wr16 .bc 0x1234#16 := by decide
theorem test_decode_enc : decode 0b0000000000001010_00_000_101#24 = .enc 0b1010#4 := by decide
theorem test_decode_dec : decode 0b0000000010110000_00_000_110#24 = .dec 0xB0#8 := by decide
theorem test_decode_reserved_op : decode 0b0000000000000000_00_000_111#24 = .reserved 0x000007#24 := by decide
theorem test_decode_reserved_rsv : decode 0b0001001000110100_11_000_010#24 = .reserved 0x1234C2#24 := by decide
/-- R33's shift form of the format. -/
theorem test_format_by_shift :
    cmdWord 0x1234#16 0b001#3 0b100#3 = (0x001234#24 <<< 8) ||| (0b00#24 <<< 6) ||| (0b001#24 <<< 3) ||| 0b100#24 := by
  decide
theorem test_encode_words : encode (.wr8 .a 0x01#8) = 0x000102#24 ∧ encode (.wr16 .hl 0xBEEF#16) = 0xBEEF1C#24 := by decide
theorem test_table_word : decodeTableWord 24 0xABCD0A = some (.wr8 .b 0xCD#8) ∧ decodeTableWord 8 0x39 = some (.rd8 .l) ∧
    decodeTableWord 32 0 = none := by decide

/-! ## One step (spec/95_test_vectors.md sections 2.1 to 2.7) -/

theorem test_nop_with_data : afterWord 0x123400#24 = some (sampleCells, 0x0000#16) := by decide
theorem test_rd8_f_low_nibble : afterWord 0x000029#24 = some (sampleCells, 0x0066#16) := by decide
theorem test_rd8_d_ignores_data : afterWord 0xFFFF19#24 = some (sampleCells, 0x0044#16) := by decide
theorem test_wr8_f_unmasked : afterWord 0x000F2A#24 = some ({ sampleCells with f := 0x0F#8 }, 0x0000#16) := by decide
theorem test_wr8_b_ignores_high_data : afterWord 0xABCD0A#24 = some ({ sampleCells with b := 0xCD#8 }, 0x0000#16) := by decide
theorem test_rd16_af : afterWord 0x000003#24 = some (sampleCells, 0x1166#16) := by decide
theorem test_rd16_hl : afterWord 0x00001B#24 = some (sampleCells, 0x7788#16) := by decide
theorem test_wr16_af_unmasked :
    afterWord 0x12FF04#24 = some ({ sampleCells with a := 0x12#8, f := 0xFF#8 }, 0x0000#16) := by decide
theorem test_wr16_hl : afterWord 0xFF001C#24 = some ({ sampleCells with h := 0xFF#8, l := 0x00#8 }, 0x0000#16) := by decide
theorem test_enc_ignores_data : afterWord 0xFFF505#24 = some (sampleCells, 0x0050#16) := by decide
theorem test_enc_zero_and_half_carry : afterWord 0x000A05#24 = some (sampleCells, 0x00A0#16) := by decide
/-- Scenario 2 as corrected by spec/90_conflicts.md C1: zero, half-carry and carry, not subtract. -/
theorem test_dec_scenario_two : afterWord 0x00B006#24 = some (sampleCells, 0x000B#16) ∧
    setOfFlags4 (flagsDecode 0xB0#8) = ⟨true, false, true, true⟩ := by decide
theorem test_dec_ignores_data : afterWord 0xFF8006#24 = some (sampleCells, 0x0008#16) := by decide
theorem test_reserved_op : afterWord 0xFFFF3F#24 = some (sampleCells, 0x0000#16) := by decide
theorem test_reserved_pair_write : afterWord 0x12342C#24 = some (sampleCells, 0x0000#16) := by decide
theorem test_reset_drops_command :
    seen (step (sample [⟨true, 0x00FF02#24⟩])) = some (Cells.fill fun _ => 0x00#8, 0x0000#16) := by decide
theorem test_reset_other_image :
    seen (step { sample [⟨true, 0x000003#24⟩] with resetImage := ⟨0x01#8, 0x00#8, 0x13#8, 0x00#8, 0xD8#8, 0xB0#8, 0x01#8, 0x4D#8⟩ }) =
      some (⟨0x01#8, 0x00#8, 0x13#8, 0x00#8, 0xD8#8, 0xB0#8, 0x01#8, 0x4D#8⟩, 0x0000#16) := by decide
theorem test_fetch_word_after_reset :
    seen (step (State.reset.withFetchWord 24 0x12340C)) =
      some ({ Cells.fill (fun _ => 0x00#8) with b := 0x12#8, c := 0x34#8 }, 0x0000#16) := by decide
/-- A block with an image of its own comes out of reset with it, its F low nibble kept (R12, R21). -/
theorem test_reset_with : (State.resetWith sampleCells).cells.get .f = 0x66#8 := by decide

/-! ## The assembler (R44, words of spec/95_test_vectors.md) -/

theorem test_assemble_pair_write : assembleTextLine "WR16 HL, 0xBEEF".toList = some [⟨false, 0xBEEF1C#24⟩] := by decide
theorem test_assemble_case_comment_binary : assembleTextLine "  enc 0b1010 ; flags".toList = some [⟨false, 0x000A05#24⟩] := by
  decide
theorem test_assemble_flag_set :
    assembleTextLine ("ENC ".toList ++ [Char.ofNat 123] ++ "Z,H".toList ++ [Char.ofNat 125]) = some [⟨false, 0x000A05#24⟩] := by
  decide
theorem test_assemble_refuses_wide : assembleTextLine "WR8 A, 0x100".toList = none := by decide
theorem test_assemble_refuses_name : assembleTextLine "RD8 AF".toList = none := by decide
theorem test_assemble_raw_and_reset :
    assemble ".word 0x00FF07\nRST\n; end".toList = some [⟨false, 0x00FF07#24⟩, ⟨true, 0x000000#24⟩] := by decide

/-! ## Witnesses: concrete values that meet the hypotheses of each statement that has any -/

theorem witness_DecodeOfEncode : Instr.wellFormed (.reserved 0xFFFF3F#24) = true ∧ Instr.wellFormed (.wr8 .l 0x80#8) = true := by
  decide
theorem witness_DataOperandsAndIgnoredBits :
    0xABCD0A#24 &&& effectiveBits 0xABCD0A#24 = 0x00CD0A#24 &&& effectiveBits 0xABCD0A#24 ∧ 0xABCD0A#24 ≠ 0x00CD0A#24 := by decide
theorem witness_RegisterSelectors_first : (0x000002#24).extractLsb' 6 2 = 0b00#2 ∧
    regTable[((0x000002#24).extractLsb' 3 3).toNat]? = some .a ∧ (0x000002#24).extractLsb' 0 3 = 0b010#3 := by decide
theorem witness_RegisterSelectors_last : (0x000039#24).extractLsb' 6 2 = 0b00#2 ∧
    regTable[((0x000039#24).extractLsb' 3 3).toNat]? = some .l ∧ (0x000039#24).extractLsb' 0 3 = 0b001#3 := by decide
theorem witness_PairSelectors_read : (0x00001B#24).extractLsb' 6 2 = 0b00#2 ∧
    pairTable[((0x00001B#24).extractLsb' 3 3).toNat]? = some .hl ∧ (0x00001B#24).extractLsb' 0 3 = 0b011#3 := by decide
theorem witness_PairSelectors_write : (0x000004#24).extractLsb' 6 2 = 0b00#2 ∧
    pairTable[((0x000004#24).extractLsb' 3 3).toNat]? = some .af ∧ (0x000004#24).extractLsb' 0 3 = 0b100#3 := by decide
theorem witness_PairSelectors_reserved : (0x000023#24).getLsbD 5 = true ∧ (0x000023#24).extractLsb' 0 3 = 0b011#3 := by decide
theorem witness_ReservedWords : decode 0x000007#24 = .reserved 0x000007#24 := by decide
theorem witness_ReservedWordActsAsNop : isReservedWord 0x000023#24 = true := by decide
theorem witness_Wr8WritesOneCell : Reg.f ≠ Reg.a := by decide
theorem witness_Wr16WritesOnePair : Reg.b ≠ (pairCells .af).1 ∧ Reg.b ≠ (pairCells .af).2 := by decide
theorem witness_CodecRoundTrips : 0xB0#8 &&& 0x0F#8 = 0x00#8 := by decide
theorem witness_CommandsChangeOnlyNamedCells : Reg.h ∉ cellsWritten (.wr16 .de 0xFFFF#16) := by decide
theorem witness_AccessMatrixHolds :
    (∀ q ∈ cellsRead (.rd16 .af), (sample []).cells.get q = ({ sampleCells with b := 0x00#8 } : Cells).get q) ∧
      (sample []).cells ≠ { sampleCells with b := 0x00#8 } := by decide
theorem witness_ReadsPureWritesIdempotent : cellsWritten (.rd16 .hl) = [] := by decide
theorem witness_ResetWinsOverCommand : Reg.d ∉ cellsWritten (.wr16 .bc 0x1234#16) ∧ Reg.a ∉ cellsWritten .nop := by decide
theorem witness_StepTakesResetInput : (sample [⟨true, 0x00FF02#24⟩]).inputs = ⟨true, 0x00FF02#24⟩ :: [] := by decide
theorem witness_StepRunsDecodedCommand : (sample [⟨false, 0x00FF12#24⟩]).inputs = ⟨false, 0x00FF12#24⟩ :: [] := by decide
theorem witness_NothingIssuedIsIdle : (sample []).inputs = [] := by decide
theorem witness_ResetImageIsConstant : step (sample []) = .next { sample [] with rdata := 0x0000#16 } := rfl
theorem witness_StepRefinesOpcodeTable : (sample [⟨false, 0x12342C#24⟩]).inputs = ⟨false, 0x12342C#24⟩ :: [] := by decide
theorem witness_RunFollowsOpcodeTable : (sample [⟨false, 0x000029#24⟩, ⟨true, 0x000000#24⟩]).inputs =
    [⟨false, 0x000029#24⟩] ++ [⟨true, 0x000000#24⟩] := by decide
/-- WR8 A, 0x01; WR8 A, 0x02; RD8 A: the second write is the last one. -/
theorem witness_LaterWriteWins :
    (sample [⟨false, 0x000102#24⟩, ⟨false, 0x000202#24⟩, ⟨false, 0x000001#24⟩]).inputs =
      [⟨false, 0x000102#24⟩] ++ (⟨false, 0x000202#24⟩ : PortInput) :: [⟨false, 0x000001#24⟩] ++ [] ∧
    inputWrites (sample []).resetImage .a ⟨false, 0x000202#24⟩ = some 0x02#8 ∧
    ∀ y ∈ ([⟨false, 0x000001#24⟩] : List PortInput), inputWrites (sample []).resetImage .a y = none := by decide
theorem witness_UnwrittenCellHolds :
    (sample [⟨false, 0x12340C#24⟩]).inputs = [⟨false, 0x12340C#24⟩] ++ [] ∧
    ∀ y ∈ ([⟨false, 0x12340C#24⟩] : List PortInput), inputWrites (sample []).resetImage .d y = none := by decide
theorem witness_NonWritersAreInvisible :
    (sample [⟨false, 0x00B006#24⟩, ⟨false, 0x00FF12#24⟩]).inputs = [⟨false, 0x00B006#24⟩, ⟨false, 0x00FF12#24⟩] ++ [] ∧
    ([⟨false, 0x00B006#24⟩, ⟨false, 0x00FF12#24⟩] : List PortInput).filter isWriter = [⟨false, 0x00FF12#24⟩] := by decide
/-- WR16 BC, 0x1234 against WR8 B, 0x12: the same byte into B, different cells elsewhere. -/
theorem witness_CellsAreIsolated :
    ({ sample [⟨false, 0x12340C#24⟩] with cells := { sampleCells with b := 0x00#8 } } : State).inputs =
      [⟨false, 0x12340C#24⟩] ++ [] ∧
    (State.reset.withFetchWord 24 0x00120A).inputs = [⟨false, 0x00120A#24⟩] ++ [] ∧
    ({ sample [⟨false, 0x12340C#24⟩] with cells := { sampleCells with b := 0x00#8 } } : State).cells.get .b =
      (State.reset.withFetchWord 24 0x00120A).cells.get .b ∧
    ([⟨false, 0x12340C#24⟩] : List PortInput).map (inputWrites (sample [⟨false, 0x12340C#24⟩]).resetImage .b) =
      ([⟨false, 0x00120A#24⟩] : List PortInput).map (inputWrites (State.reset.withFetchWord 24 0x00120A).resetImage .b) := by
  decide
/-- F = 0xB0 with WR8 F, 0xA0 to come, and the step that takes it. -/
theorem witness_LowNibbleStaysClear :
    callerKeepsLowNibbleClear { State.reset with cells := { sampleCells with f := 0xB0#8 }, inputs := [⟨false, 0x00A02A#24⟩] } ∧
    step { State.reset with cells := { sampleCells with f := 0xB0#8 }, inputs := [⟨false, 0x00A02A#24⟩] } =
      .next { State.reset with cells := { sampleCells with f := 0xA0#8 }, rdata := 0x0000#16, inputs := [] } := by
  refine ⟨⟨by decide, fun x hx v hv => ?_⟩, rfl⟩
  obtain rfl : x = ⟨false, 0x00A02A#24⟩ := by simpa using hx
  have hw : inputWrites State.reset.resetImage .f ⟨false, 0x00A02A#24⟩ = some 0xA0#8 := by decide
  obtain rfl : 0xA0#8 = v := Option.some.inj (hw.symm.trans hv)
  decide
theorem witness_AssembledCommandDecodes : Instr.wellFormed (.reserved 0x000041#24) = true := by decide
theorem witness_OneStepPerLine_line : assembleTextLine "RD8 A".toList = some [⟨false, 0x000001#24⟩] ∧
    isBlankLine "RD8 A".toList = false := by decide
theorem witness_OneStepPerLine_blank : isBlankLine [] = true ∧ isBlankLine " \t; RD8 A".toList = true := by decide
theorem witness_OneStepPerLine_step : assembleLine .rst = some ⟨true, 0x000000#24⟩ ∧
    assembleLine (.word 0xFFFFFF) = some ⟨false, 0xFFFFFF#24⟩ := by decide
theorem witness_OneStepPerLine_lines : assembleLines ["RD8 A".toList, [], "RST".toList] =
    some [⟨false, 0x000001#24⟩, ⟨true, 0x000000#24⟩] := by decide
theorem witness_OneStepPerLine_text : (["NOP".toList, []] : List (List Char)) ≠ [] ∧
    ∀ l ∈ (["NOP".toList, []] : List (List Char)), '\n' ∉ l := by decide
theorem witness_CommentAndMnemonicCaseIgnored :
    "rd8".toList.map Char.toUpper = "Rd8".toList.map Char.toUpper ∧ ("rd8".toList.all fun c => c.isAlphanum || c == '.') = true ∧
    ".word".toList.map Char.toUpper = ".WORD".toList.map Char.toUpper ∧
    (".word".toList.all fun c => c.isAlphanum || c == '.') = true := by decide
/-- A reset and a write of 0xA0 into F to come: both keep F's low nibble 0. -/
theorem witness_ResetMeetsCallerObligation :
    ∀ x ∈ ([⟨true, 0x00FF2A#24⟩, ⟨false, 0x00A02A#24⟩] : List PortInput), ∀ v,
      inputWrites State.reset.resetImage .f x = some v → v &&& 0x0F#8 = 0x00#8 := by
  have hr : inputWrites State.reset.resetImage .f ⟨true, 0x00FF2A#24⟩ = some 0x00#8 := by decide
  have hw : inputWrites State.reset.resetImage .f ⟨false, 0x00A02A#24⟩ = some 0xA0#8 := by decide
  intro x hx v hv
  rcases List.mem_pair.1 hx with rfl | rfl
  · obtain rfl : 0x00#8 = v := Option.some.inj (hr.symm.trans hv)
    decide
  · obtain rfl : 0xA0#8 = v := Option.some.inj (hw.symm.trans hv)
    decide
/-- `wr8`, and 255 in hex and in binary: the largest number that fits. -/
theorem witness_TextOfRegisterFileLines :
    writesMnemonic "nop".toList "NOP".toList ∧ writesMnemonic "rD8".toList "RD8".toList ∧
    writesMnemonic "Rd16".toList "RD16".toList ∧ writesMnemonic "wr8".toList "WR8".toList ∧
    writesMnemonic "WR16".toList "WR16".toList ∧ writesNumber "0xFF".toList 255 ∧ writesNumber "0b11111111".toList 255 :=
  ⟨rfl, rfl, rfl, rfl, rfl, ⟨2, by decide, Or.inl (by decide)⟩, ⟨8, by decide, Or.inr (by decide)⟩⟩
/-- 256, the smallest number too wide for a byte, with a leading zero; 2^24, too wide for a word. -/
theorem witness_TextOfCodecResetAndWordLines :
    writesMnemonic "enc".toList "ENC".toList ∧ writesMnemonic "dEc".toList "DEC".toList ∧
    writesMnemonic "rst".toList "RST".toList ∧ writesMnemonic ".word".toList ".WORD".toList ∧
    writesNumber "0x0100".toList 256 ∧ writesNumber "0x1000000".toList (2 ^ 24) :=
  ⟨rfl, rfl, rfl, rfl, ⟨4, by decide, Or.inl (by decide)⟩, ⟨7, by decide, Or.inl (by decide)⟩⟩

end Sys2Proof.Tests
end

/-! # Command words and the opcode table's step

The decoder and `tableStep` are each described once per row of the opcode table, on a word written as data bits above
one of the control bytes of R46; the step of the machine is then the table's step, row by row. -/

namespace Sys2Proof

open Sys2Proof.Machine Sys2Proof.Safety

/-! ## Decoding a word of each row -/

/-- R38 and R48: NOP whatever the data bits. -/
@[simp] theorem decode_nopWord (d : Word16) : decode (d ++ 0x00#8) = .nop := by
  simp only [decode, cmdRsv_append, cmdOp_append, cmdSel_append]
  rfl

@[simp] theorem decode_rd8Word (d : Word16) (r : Reg) : decode (d ++ rd8Control r) = .rd8 r := by
  simp only [decode, cmdRsv_append, cmdOp_append, cmdSel_append]
  cases r <;> rfl

@[simp] theorem decode_wr8Word (d : Word16) (r : Reg) : decode (d ++ wr8Control r) = .wr8 r (lowByte d) := by
  simp only [decode, cmdRsv_append, cmdOp_append, cmdSel_append, byteOperand, cmdData_append]
  cases r <;> rfl

@[simp] theorem decode_rd16Word (d : Word16) (p : Pair) : decode (d ++ rd16Control p) = .rd16 p := by
  simp only [decode, cmdRsv_append, cmdOp_append, cmdPairSelLegal, cmdPairSel, cmdSel_append]
  cases p <;> rfl

@[simp] theorem decode_wr16Word (d : Word16) (p : Pair) : decode (d ++ wr16Control p) = .wr16 p d := by
  simp only [decode, cmdRsv_append, cmdOp_append, cmdPairSelLegal, cmdPairSel, cmdSel_append, wordOperand,
    cmdData_append]
  cases p <;> rfl

@[simp] theorem decode_encWord (d : Word16) : decode (d ++ 0x05#8) = .enc (d.extractLsb' 0 4) := by
  simp only [decode, cmdRsv_append, cmdOp_append, cmdSel_append, flagsOperand, cmdData_append]
  rfl

@[simp] theorem decode_decWord (d : Word16) : decode (d ++ 0x06#8) = .dec (lowByte d) := by
  simp only [decode, cmdRsv_append, cmdOp_append, cmdSel_append, byteOperand, cmdData_append]
  rfl

/-- `sel[2]` is `cmd[5]` (R33, R36). -/
theorem cmdPairSelLegal_eq (w : Cmd) : cmdPairSelLegal w = !w.getLsbD 5 := by
  simp [cmdPairSelLegal, cmdSel]

/-- R41's four clauses in terms of the decoder's fields. -/
theorem isReservedWord_iff (w : Cmd) : isReservedWord w = true ↔
    cmdOp w = 0b111#3 ∨ cmdRsv w ≠ 0b00#2 ∨
      ((cmdOp w = 0b000#3 ∨ cmdOp w = 0b101#3 ∨ cmdOp w = 0b110#3) ∧ cmdSel w ≠ 0b000#3) ∨
      ((cmdOp w = 0b011#3 ∨ cmdOp w = 0b100#3) ∧ cmdPairSelLegal w = false) := by
  simp [isReservedWord, reservedByOp, reservedByRsv, reservedBySel, reservedBySelHigh,
    cmdPairSelLegal_eq, cmdOp, cmdRsv, cmdSel, or_assoc]

/-- R42: each of R41's clauses leads the decoder to `reserved`. -/
theorem decode_of_isReservedWord {w : Cmd} (h : isReservedWord w = true) : decode w = .reserved w := by
  rw [isReservedWord_iff] at h
  unfold decode
  rcases h with hop | hrsv | ⟨hop | hop | hop, hsel⟩ | ⟨hop | hop, hlegal⟩
  · simp [hop]
  · simp [hrsv]
  · simp [hop, hsel]
  · simp [hop, hsel]
  · simp [hop, hsel]
  · simp [hop, hlegal]
  · simp [hop, hlegal]

/-! ## The table's masks on a word put together from data bits and control byte -/

theorem and_mask_FF (d : Word16) (c : Byte) : (d ++ c) &&& 0x0000FF#24 = 0x0000#16 ++ (c &&& 0xFF#8) :=
  and_control d c 0xFF#8

theorem and_mask_C7 (d : Word16) (c : Byte) : (d ++ c) &&& 0x0000C7#24 = 0x0000#16 ++ (c &&& 0xC7#8) :=
  and_control d c 0xC7#8

theorem and_mask_E7 (d : Word16) (c : Byte) : (d ++ c) &&& 0x0000E7#24 = 0x0000#16 ++ (c &&& 0xE7#8) :=
  and_control d c 0xE7#8

/-! The table's shifts and masks on the data bits, in the machine's operations. -/

theorem setWidth_and_FF (v : Word16) : (v &&& 0x00FF#16).setWidth 8 = lowByte v := by
  apply BitVec.eq_of_getLsbD_eq
  intro i hi
  interval_cases i <;> simp [lowByte]

theorem lowByte_ushiftRight (v : Word16) : lowByte (v >>> 8) = highByte v := by
  apply BitVec.eq_of_getLsbD_eq
  intro i hi
  simp [lowByte, highByte, hi]

/-- R58, bit by bit. -/
theorem getLsbD_flagsEncode (f : Flags4) (i : Nat) :
    (flagsEncode f).getLsbD i = (decide (4 ≤ i) && f.getLsbD (i - 4)) := by
  rw [flagsEncode, BitVec.getLsbD_append, BitVec.getLsbD_zero]
  split
  case isTrue h => rw [decide_eq_false (by omega), Bool.false_and]
  case isFalse h => rw [decide_eq_true (by omega), Bool.true_and]

theorem and_F_shiftLeft (d : Word16) :
    (d &&& 0x000F#16) <<< 4 = (flagsEncode (d.extractLsb' 0 4)).setWidth 16 := by
  apply BitVec.eq_of_getLsbD_eq
  intro i hi
  rw [BitVec.getLsbD_setWidth, getLsbD_flagsEncode]
  interval_cases i <;> simp

theorem and_F0_shiftRight (d : Word16) :
    (d &&& 0x00F0#16) >>> 4 = (flagsDecode (lowByte d)).setWidth 16 := by
  apply BitVec.eq_of_getLsbD_eq
  intro i hi
  interval_cases i <;> simp [flagsDecode, lowByte]

/-! ## The table's step on a word of each row -/

section TableRows

variable (image S : Cells) (d : Word16) (r : Reg) (p : Pair)

theorem tableStep_nopWord : tableStep image S ⟨false, d ++ 0x00#8⟩ = (S, 0x0000#16) := by
  simp [tableStep, and_mask_FF]

theorem tableStep_rd8Word :
    tableStep image S ⟨false, d ++ rd8Control r⟩ = (S, (S.get r).setWidth 16) := by
  simp only [tableStep, and_mask_FF, and_mask_C7, shift_selector]
  cases r <;> rfl

theorem tableStep_wr8Word :
    tableStep image S ⟨false, d ++ wr8Control r⟩ = (S.set r (lowByte d), 0x0000#16) := by
  simp only [tableStep, and_mask_FF, and_mask_C7, shift_selector, shift_data, setWidth_and_FF]
  cases r <;> rfl

theorem tableStep_rd16Word :
    tableStep image S ⟨false, d ++ rd16Control p⟩ = (S, S.getPair p) := by
  simp only [tableStep, and_mask_FF, and_mask_C7, and_mask_E7, shift_selector, pairByShift_eq_append]
  cases p <;> rfl

theorem tableStep_wr16Word :
    tableStep image S ⟨false, d ++ wr16Control p⟩ = (S.setPair p d, 0x0000#16) := by
  simp only [tableStep, and_mask_FF, and_mask_C7, and_mask_E7, shift_selector, shift_data, setWidth_and_FF,
    lowByte_ushiftRight]
  cases p <;> rfl

theorem tableStep_encWord :
    tableStep image S ⟨false, d ++ 0x05#8⟩ = (S, (flagsEncode (d.extractLsb' 0 4)).setWidth 16) := by
  simp [tableStep, and_mask_FF, and_mask_C7, and_mask_E7, shift_data, and_F_shiftLeft]

theorem tableStep_decWord :
    tableStep image S ⟨false, d ++ 0x06#8⟩ = (S, (flagsDecode (lowByte d)).setWidth 16) := by
  simp [tableStep, and_mask_FF, and_mask_C7, and_mask_E7, shift_data, and_F0_shiftRight]

/-- The control byte of a reserved word matches no row of the opcode table. -/
theorem no_row_of_reserved_control : ∀ c : Byte, isReservedWord (0x0000#16 ++ c) = true →
    0x0000#16 ++ (c &&& 0xFF#8) ∉ [0x000000#24, 0x000005#24, 0x000006#24] ∧
      0x0000#16 ++ (c &&& 0xC7#8) ∉ [0x000001#24, 0x000002#24] ∧
      0x0000#16 ++ (c &&& 0xE7#8) ∉ [0x000003#24, 0x000004#24] := by
  decide

theorem tableStep_reservedWord {w : Cmd} (h : isReservedWord w = true) :
    tableStep image S ⟨false, w⟩ = (S, 0x0000#16) := by
  obtain ⟨d, c, rfl⟩ := exists_data_control w
  rw [isReservedWord_append] at h
  have hrow := no_row_of_reserved_control c h
  simp only [List.mem_cons, List.not_mem_nil, or_false, not_or] at hrow
  obtain ⟨⟨hnop, henc, hdec⟩, ⟨hrd8, hwr8⟩, hrd16, hwr16⟩ := hrow
  simp only [tableStep, and_mask_FF, and_mask_C7, and_mask_E7, Bool.false_eq_true, hnop, hrd8, hwr8, hrd16, hwr16,
    henc, hdec, if_false]

end TableRows

/-! ## The step of the machine -/

/-- The decoded command's meaning is the row of the opcode table that the word matches. -/
theorem exec_decode_eq_tableStep (w : Cmd) (s : State) :
    exec (decode w) s = .next { s with
      cells := (tableStep s.resetImage s.cells ⟨false, w⟩).1
      rdata := (tableStep s.resetImage s.cells ⟨false, w⟩).2 } := by
  rcases word_cases w with h | ⟨d, rfl | ⟨r, rfl⟩ | ⟨r, rfl⟩ | ⟨p, rfl⟩ | ⟨p, rfl⟩ | rfl | rfl⟩
  · rw [decode_of_isReservedWord h, tableStep_reservedWord _ _ h]; rfl
  · rw [decode_nopWord, tableStep_nopWord]; rfl
  · rw [decode_rd8Word, tableStep_rd8Word]; rfl
  · rw [decode_wr8Word, tableStep_wr8Word]; rfl
  · rw [decode_rd16Word, tableStep_rd16Word]; rfl
  · rw [decode_wr16Word, tableStep_wr16Word]; rfl
  · rw [decode_encWord, tableStep_encWord]; rfl
  · rw [decode_decWord, tableStep_decWord]; rfl

/-- R47 and R72: one value of the ports, a reset included, performs the table's step. -/
theorem runInput_eq_tableStep (x : PortInput) (s : State) :
    runInput x s = .next { s with
      cells := (tableStep s.resetImage s.cells x).1
      rdata := (tableStep s.resetImage s.cells x).2 } := by
  obtain ⟨_ | _, w⟩ := x
  · exact exec_decode_eq_tableStep w s
  · rfl

theorem step_of_cons {s : State} {x : PortInput} {rest : List PortInput} (h : s.inputs = x :: rest) :
    step s = runInput x { s with inputs := rest } := by
  rw [step, s.nextInput_of_cons h, s.consumeInput_of_cons h]

/-- Everything a step can do: new cells, a new output and the ports moved on, and nothing else of the state. -/
theorem step_cases (s : State) :
    ∃ (S : Cells) (v : Word16), step s = .next { s with cells := S, rdata := v, inputs := s.inputs.tail } :=
  runInput_cases s.nextInput s.consumeInput

/-- Settles O32: no case of `step_cases` writes the reset image. -/
theorem resetImageIsConstant : Obligations.ResetImageIsConstant := by
  intro s t h
  obtain ⟨S, v, hstep⟩ := step_cases s
  obtain rfl := Host.Outcome.next.inj (hstep.symm.trans h)
  rfl

/-- Settles O33: the next state is the one that `runInput_eq_tableStep` names, for the input the step takes. -/
theorem stepRefinesOpcodeTable : Obligations.StepRefinesOpcodeTable := by
  intro s x rest h
  exact ⟨_, (step_of_cons h).trans (runInput_eq_tableStep x _), rfl, rfl, rfl⟩

end Sys2Proof

/-! # Cells and output through a command, a step and a run

What one command answers is said once, cell by cell (`exec_next`). A run then leaves in each cell what the writes into
that one cell leave there (`run_next`), so each statement about runs is one about a list of writes into one cell. -/

namespace Sys2Proof

open Sys2Proof.Machine Sys2Proof.Safety

/-! ## What a command writes and drives -/

theorem setWidth_eq_lowByte (v : Word16) : v.setWidth 8 = lowByte v := by
  rw [lowByte, BitVec.setWidth_eq_extractLsb' (by decide)]

theorem setWidth_ushiftRight_eq_highByte (v : Word16) : (v >>> 8).setWidth 8 = highByte v := by
  rw [setWidth_eq_lowByte, lowByte_ushiftRight]

/-- The claims' table of writes into a cell and the access matrix name the same cells. -/
theorem commandWrites_eq_none_iff (q : Reg) (i : Instr) : commandWrites q i = none ↔ q ∉ cellsWritten i := by
  cases i with
  | wr8 r v => simp [commandWrites, cellsWritten]
  | wr16 p v => by_cases hhi : q = (pairCells p).1 <;> simp [commandWrites, cellsWritten, hhi]
  | nop | rd8 _ | rd16 _ | enc _ | dec _ | reserved _ => simp [commandWrites, cellsWritten]

/-- R40: the output of a command's step as a function of the cells before it; `exec_next` ties it to the machine. -/
def commandOutput (S : Cells) : Instr → Word16
  | .rd8 r => (S.get r).setWidth 16
  | .rd16 p => S.getPair p
  | .enc f => (flagsEncode f).setWidth 16
  | .dec b => (flagsDecode b).setWidth 16
  | .nop | .wr8 _ _ | .wr16 _ _ | .reserved _ => 0x0000#16

/-- The output depends on no cell but those of the access matrix. -/
theorem commandOutput_congr {S S' : Cells} (i : Instr) (h : ∀ q ∈ cellsRead i, S.get q = S'.get q) :
    commandOutput S i = commandOutput S' i := by
  cases i with
  | rd8 r => simp only [commandOutput, h r (by simp [cellsRead])]
  | rd16 p =>
    have hhi : S.get (pairHi p) = S'.get (pairHi p) := h _ (by simp [cellsRead, pairCells_fst])
    have hlo : S.get (pairLo p) = S'.get (pairLo p) := h _ (by simp [cellsRead, pairCells_snd])
    simp only [commandOutput, Cells.getPair, hhi, hlo]
  | nop | wr8 _ _ | wr16 _ _ | enc _ | dec _ | reserved _ => rfl

/-- Everything a command's next state holds, cell by cell: what the command writes there or what stood there before. -/
theorem exec_next (i : Instr) (s : State) :
    ∃ t, exec i s = .next t ∧ t.rdata = commandOutput s.cells i ∧ t.resetImage = s.resetImage ∧
      t.inputs = s.inputs ∧ ∀ q, t.cells.get q = (commandWrites q i).getD (s.cells.get q) := by
  cases i with
  | wr8 r v =>
    refine ⟨_, exec_wr8 r v s, rfl, rfl, rfl, fun q => ?_⟩
    rw [State.drive_cells, State.writeCell_cells, Cells.get_set, commandWrites]
    split <;> rfl
  | wr16 p v =>
    refine ⟨_, exec_wr16 p v s, rfl, rfl, rfl, fun q => ?_⟩
    rw [State.drive_cells, State.writePair_cells, Cells.get_setPair, commandWrites, pairCells_fst, pairCells_snd,
      setWidth_ushiftRight_eq_highByte, setWidth_eq_lowByte]
    split
    · rfl
    · split <;> rfl
  | nop | rd8 _ | rd16 _ | enc _ | dec _ | reserved _ => exact ⟨_, rfl, rfl, rfl, rfl, fun _ => rfl⟩

/-- One value of the ports, a reset included, cell by cell. -/
theorem runInput_next (x : PortInput) (s : State) :
    ∃ t, runInput x s = .next t ∧ t.resetImage = s.resetImage ∧ t.inputs = s.inputs ∧
      ∀ q, t.cells.get q = (inputWrites s.resetImage q x).getD (s.cells.get q) := by
  obtain ⟨_ | _, w⟩ := x
  · obtain ⟨t, hexec, -, himage, hinputs, hcells⟩ := exec_next (decode w) s
    exact ⟨t, hexec, himage, hinputs, hcells⟩
  · exact ⟨_, rfl, rfl, rfl, fun _ => rfl⟩

/-! ## What a run leaves in one cell -/

/-- The value of a cell that holds `v`, after a list of steps that each write a value into it or write nothing. -/
def cellAfterWrites (v : Byte) (writes : List (Option Byte)) : Byte := writes.foldl (fun v w => w.getD v) v

@[simp] theorem cellAfterWrites_nil (v : Byte) : cellAfterWrites v [] = v := rfl
@[simp] theorem cellAfterWrites_cons (v : Byte) (w : Option Byte) (ws : List (Option Byte)) :
    cellAfterWrites v (w :: ws) = cellAfterWrites (w.getD v) ws := rfl

theorem cellAfterWrites_of_forall_none (v : Byte) (ws : List (Option Byte)) (h : ∀ w ∈ ws, w = none) :
    cellAfterWrites v ws = v := by
  induction ws with
  | nil => rfl
  | cons w ws ih =>
    obtain ⟨rfl, hws⟩ := List.forall_mem_cons.1 h
    exact ih hws

/-- A run takes the inputs presented to it and leaves in each cell what their writes into that cell leave. -/
theorem run_next (xs rest : List PortInput) (s : State) (h : s.inputs = xs ++ rest) :
    ∃ t : State, core.run xs.length s = .next t ∧ t.resetImage = s.resetImage ∧ t.inputs = rest ∧
      ∀ q, t.cells.get q = cellAfterWrites (s.cells.get q) (xs.map (inputWrites s.resetImage q)) := by
  induction xs generalizing s with
  | nil => exact ⟨s, rfl, rfl, h, fun _ => rfl⟩
  | cons x xs ih =>
    obtain ⟨u, hinput, huimage, huinputs, hucells⟩ := runInput_next x { s with inputs := xs ++ rest }
    obtain ⟨t, hrun, htimage, htinputs, htcells⟩ := ih u huinputs
    have hstep : step s = .next u := (step_of_cons h).trans hinput
    refine ⟨t, (run_succ_of_next _ hstep).trans hrun, htimage.trans huimage, htinputs, fun q => ?_⟩
    rw [htcells q, huimage, hucells q]
    rfl

/-- Settles O38: by `run_next` both cells are the same function of the same value and the same list of writes. -/
theorem cellsAreIsolated : Obligations.CellsAreIsolated := by
  intro s s' xs xs' rest rest' r hs hs' hcell hwrites
  obtain ⟨t, hrun, -, -, ht⟩ := run_next xs rest s hs
  obtain ⟨t', hrun', -, -, ht'⟩ := run_next xs' rest' s' hs'
  exact ⟨t, t', hrun, hrun', by rw [ht, ht', hcell, hwrites]⟩

/-- Settles O36: a list of steps that write nothing into the cell leaves its value. -/
theorem unwrittenCellHolds : Obligations.UnwrittenCellHolds := by
  intro s xs rest r hs hnone
  obtain ⟨t, hrun, -, -, ht⟩ := run_next xs rest s hs
  exact ⟨t, hrun, (ht r).trans (cellAfterWrites_of_forall_none _ _ (List.forall_mem_map.2 hnone))⟩

/-- Settles O23: the output by `commandOutput_congr`; a cell of the matrix takes the command's own value, which no cell
enters, and any other cell keeps its value. -/
theorem accessMatrixHolds : Obligations.AccessMatrixHolds := by
  refine ⟨fun i s s' hread => ?_, fun w s => ⟨_, runInput_reset w s, fun _ => rfl⟩⟩
  obtain ⟨t, hexec, hout, -, -, hcells⟩ := exec_next i s
  obtain ⟨t', hexec', hout', -, -, hcells'⟩ := exec_next i s'
  refine ⟨t, t', hexec, hexec', by rw [hout, hout', commandOutput_congr i hread], fun q hq => ?_, fun q hq => ?_⟩
  · have hsome : commandWrites q i ≠ none := fun h => (commandWrites_eq_none_iff q i).1 h hq
    obtain ⟨v, hv⟩ := Option.ne_none_iff_exists'.1 hsome
    rw [hcells, hcells', hv, Option.getD_some, Option.getD_some]
  · rw [hcells, (commandWrites_eq_none_iff q i).2 hq, Option.getD_none]

/-! ## The pair commands -/

/-- R36: RD16's or WR16's `op` under `sel[2] = 1` makes a reserved word. -/
theorem isReservedWord_of_pairSelHigh (d : Word16) (x : BitVec 2) {op : BitVec 3}
    (hop : op = 0b011#3 ∨ op = 0b100#3) :
    isReservedWord (d ++ 0b001#3 ++ x ++ op) = true := by
  have hcmdOp : cmdOp (d ++ 0b001#3 ++ x ++ op) = op := by
    rw [cmdOp]
    exact BitVec.extractLsb'_append_eq_right
  have hlegal : cmdPairSelLegal (d ++ 0b001#3 ++ x ++ op) = false := by
    rw [cmdPairSelLegal_eq, BitVec.getLsbD_append, BitVec.getLsbD_append, BitVec.getLsbD_append]
    rfl
  exact (isReservedWord_iff _).2 (.inr (.inr (.inr ⟨by rwa [hcmdOp], hlegal⟩)))

/-- Settles O11. -/
theorem rd16ReadsOnePair : Obligations.Rd16ReadsOnePair := by
  refine ⟨decode_rd16Word, fun p s => ?_, fun d x => ?_⟩
  · rw [exec_rd16, pairByShift_eq_append, pairCells_fst, pairCells_snd]
    rfl
  · exact decode_of_isReservedWord (isReservedWord_of_pairSelHigh d x (.inl rfl))

/-- Settles O12. -/
theorem wr16WritesOnePair : Obligations.Wr16WritesOnePair := by
  refine ⟨decode_wr16Word, fun p v s => ⟨_, exec_wr16 p v s, ?_, ?_, fun q hhi hlo => ?_, rfl, rfl, rfl⟩,
    fun d x s => ?_⟩
  · rw [pairCells_fst, setWidth_and_FF, lowByte_ushiftRight]
    exact Cells.get_setPair_hi s.cells p v
  · rw [pairCells_snd, setWidth_and_FF]
    exact Cells.get_setPair_lo s.cells p v
  · rw [pairCells_fst] at hhi
    rw [pairCells_snd] at hlo
    exact Cells.get_setPair_of_ne s.cells v hhi hlo
  · rw [decode_of_isReservedWord (isReservedWord_of_pairSelHigh d x (.inr rfl))]
    rfl

/-! ## F is stored whole -/

/-- The low byte of a pair value, zero-extended. -/
theorem append_and_FF (x y : Byte) : (x ++ y) &&& 0x00FF#16 = y.setWidth 16 := by
  apply BitVec.eq_of_getLsbD_eq
  intro i hi
  rw [BitVec.getLsbD_and, BitVec.getLsbD_append]
  interval_cases i <;> simp

theorem setWidth_lowByte (v : Word16) : (lowByte v).setWidth 16 = v &&& 0x00FF#16 := by
  rw [← append_and_FF (highByte v), highByte_append_lowByte]

/-- RD16 AF gives A above F, and so F whole in its low half. -/
theorem getPair_af_and_FF (S : Cells) : S.getPair .af &&& 0x00FF#16 = S.f.setWidth 16 := append_and_FF S.a S.f

/-- Settles O24: each path writes F's byte whole, and both reads give the whole of F. -/
theorem rawFlagsStoredWhole : Obligations.RawFlagsStoredWhole := by
  refine ⟨fun v s => ?_, fun v s => ?_, fun w s => ?_⟩
  · exact ⟨_, _, _, exec_wr8 _ _ _, exec_rd8 _ _, exec_rd16 _ _, rfl, getPair_af_and_FF _⟩
  · exact ⟨_, _, _, exec_wr16 _ _ _, exec_rd8 _ _, exec_rd16 _ _, setWidth_lowByte v, highByte_append_lowByte v⟩
  · exact ⟨_, _, _, runInput_reset _ _, exec_rd8 _ _, exec_rd16 _ _, rfl, getPair_af_and_FF _⟩

/-! ## The reset state, and the output that nothing reads -/

/-- Settles O27. -/
theorem resetStateHoldsImage : Obligations.ResetStateHoldsImage :=
  ⟨fun r => Cells.get_fill Config.defaultResetImage r, fun _ _ => rfl⟩

/-- Settles O40: F's reset value is 0x00, and the inputs to come are the caller's. -/
theorem resetMeetsCallerObligation : Obligations.ResetMeetsCallerObligation := by
  intro xs hinputs
  have hreset : State.reset.cells.f &&& 0x0F#8 = 0x00#8 := by decide
  exact ⟨hreset, hinputs⟩

/-- No command reads the output of the step before: each drives its own. -/
theorem exec_drive (i : Instr) (s : State) (v : Word16) : exec i (s.drive v) = exec i s := by
  cases i <;> rfl

theorem runInput_drive (x : PortInput) (s : State) (v : Word16) : runInput x (s.drive v) = runInput x s := by
  obtain ⟨_ | _, w⟩ := x
  · exact exec_drive (decode w) s v
  · rfl

/-- Settles O31: the ports' input does not depend on the output, and neither does what it performs. -/
theorem outputIsNeverRead : Obligations.OutputIsNeverRead :=
  fun s v => runInput_drive s.nextInput s.consumeInput v

end Sys2Proof

/-! # Repeated commands, runs by the table, and the steps that write nothing

No command writes a cell that it reads, so the step that repeats a command sees what the first one saw. The table's run
follows the machine's by one table step per input; and by `run_next` a step that is no writer leaves no trace in any
cell. -/

namespace Sys2Proof

open Sys2Proof.Machine Sys2Proof.Safety

/-! ## A command performed twice -/

/-- R20: no command writes a cell that it reads. -/
theorem not_mem_cellsWritten_of_mem_cellsRead {i : Instr} {q : Reg} (h : q ∈ cellsRead i) : q ∉ cellsWritten i := by
  cases i with
  | rd8 _ | rd16 _ => exact List.not_mem_nil
  | nop | wr8 _ _ | wr16 _ _ | enc _ | dec _ | reserved _ => exact absurd h List.not_mem_nil

/-- R56, the frame of a command: a cell that it does not write keeps its value. -/
theorem exec_keeps_unwritten_cell {i : Instr} {s t : State} (hexec : exec i s = .next t) {q : Reg}
    (hq : q ∉ cellsWritten i) : t.cells.get q = s.cells.get q := by
  obtain ⟨t', hexec', -, -, -, hcells⟩ := exec_next i s
  obtain rfl := Host.Outcome.next.inj (hexec'.symm.trans hexec)
  rw [hcells, (commandWrites_eq_none_iff q i).2 hq, Option.getD_none]

/-- Settles O25: the second step writes into each cell what the first wrote there, or nothing, and reads only cells that the
first left alone. -/
theorem readsPureWritesIdempotent : Obligations.ReadsPureWritesIdempotent := by
  intro i s
  obtain ⟨t, hexec, hout, -, -, hcells⟩ := exec_next i s
  obtain ⟨u, hexec', hout', -, -, hcells'⟩ := exec_next i t
  refine ⟨t, u, hexec, hexec', Cells.ext_get fun q => ?_, ?_, fun hnone => Cells.ext_get fun q => ?_⟩
  · rw [hcells', hcells]
    cases commandWrites q i <;> rfl
  · rw [hout', hout]
    exact commandOutput_congr i fun q hq =>
      exec_keeps_unwritten_cell hexec (not_mem_cellsWritten_of_mem_cellsRead hq)
  · exact exec_keeps_unwritten_cell hexec (hnone ▸ List.not_mem_nil)

/-! ## A run step by step -/

/-- Settles O34, by induction on the inputs: `stepRefinesOpcodeTable` gives the first step, and the table's run goes on from
its cells with the same image. -/
theorem runFollowsOpcodeTable : Obligations.RunFollowsOpcodeTable := by
  intro xs rest s hinputs
  induction xs generalizing s with
  | nil => exact ⟨s, rfl, rfl, rfl, hinputs⟩
  | cons x xs ih =>
    obtain ⟨u, hstep, htable, huimage, huinputs⟩ := stepRefinesOpcodeTable s x (xs ++ rest) hinputs
    obtain ⟨t, hrun, hcells, htimage, htinputs⟩ := ih u huinputs
    refine ⟨t, (run_succ_of_next _ hstep).trans hrun, ?_, htimage.trans huimage, htinputs⟩
    rw [hcells, huimage, htable, tableRun]

/-! ## The steps that write nothing -/

/-- R20, R72: an input that is no writer writes nothing into any cell. -/
theorem inputWrites_eq_none_of_not_isWriter {x : PortInput} (h : isWriter x = false) (image : Cells) (q : Reg) :
    inputWrites image q x = none := by
  obtain ⟨hrst, hwritten⟩ := Bool.or_eq_false_iff.1 h
  have hnil : cellsWritten (decode x.cmd) = [] := by simpa using hwritten
  rw [inputWrites, hrst, if_neg Bool.false_ne_true, commandWrites_eq_none_iff, hnil]
  exact List.not_mem_nil

/-- The steps that are no writers can be taken out of the list of writes into a cell. -/
theorem cellAfterWrites_filter_isWriter (image : Cells) (q : Reg) (xs : List PortInput) (v : Byte) :
    cellAfterWrites v ((xs.filter isWriter).map (inputWrites image q)) =
      cellAfterWrites v (xs.map (inputWrites image q)) := by
  induction xs generalizing v with
  | nil => rfl
  | cons x xs ih =>
    cases hx : isWriter x with
    | true =>
      rw [List.filter_cons_of_pos hx]
      exact ih _
    | false =>
      rw [List.filter_cons_of_neg (by simp [hx]), List.map_cons, cellAfterWrites_cons,
        inputWrites_eq_none_of_not_isWriter hx]
      exact ih v

/-- Settles O37: by `run_next` each cell of both runs holds what the writes into it leave, and these are the writers'. -/
theorem nonWritersAreInvisible : Obligations.NonWritersAreInvisible := by
  intro s xs rest hinputs
  obtain ⟨t, hrun, -, -, ht⟩ := run_next xs rest s hinputs
  obtain ⟨u, hrun', -, -, hu⟩ :=
    run_next (xs.filter isWriter) [] { s with inputs := xs.filter isWriter } (List.append_nil _).symm
  refine ⟨t, u, hrun, hrun', Cells.ext_get fun q => ?_⟩
  rw [ht, hu, cellAfterWrites_filter_isWriter]

end Sys2Proof

/-! # Encoding and decoding

The word of each command is data bits above the control byte of R46's table (`encode_rd8` and its companions), and
`decode` of such a word is known row by row. A word is therefore the word of its decoding but for the data bits that
its row ignores, and a command is the decoding of its word. -/

namespace Sys2Proof

open Sys2Proof.Machine Sys2Proof.Safety

/-! ## The word of a command of each row -/

theorem encode_nop : encode .nop = 0x0000#16 ++ 0x00#8 := rfl

theorem encode_rd8 (r : Reg) : encode (.rd8 r) = 0x0000#16 ++ rd8Control r := by
  rw [encode, cmdWord_eq_append]
  cases r <;> rfl

theorem encode_wr8 (r : Reg) (v : Byte) : encode (.wr8 r v) = v.setWidth 16 ++ wr8Control r := by
  rw [encode, cmdWord_eq_append]
  cases r <;> rfl

theorem encode_rd16 (p : Pair) : encode (.rd16 p) = 0x0000#16 ++ rd16Control p := by
  rw [encode, cmdWord_eq_append]
  cases p <;> rfl

theorem encode_wr16 (p : Pair) (v : Word16) : encode (.wr16 p v) = v ++ wr16Control p := by
  rw [encode, cmdWord_eq_append]
  cases p <;> rfl

theorem encode_enc (f : Flags4) : encode (.enc f) = f.setWidth 16 ++ 0x05#8 := cmdWord_eq_append _ _ _

theorem encode_dec (b : Byte) : encode (.dec b) = b.setWidth 16 ++ 0x06#8 := cmdWord_eq_append _ _ _

/-! ## A command from its word -/

/-- A narrower operand is read back from the data bits it was written into. -/
theorem extractLsb'_setWidth_16 {n : Nat} (hn : n ≤ 16) (v : BitVec n) : (v.setWidth 16).extractLsb' 0 n = v := by
  rw [BitVec.extractLsb'_setWidth_of_le (by omega), BitVec.extractLsb'_eq_self]

/-- Settles O1: each row's word decodes to a command of the row with the operand that was written into it. -/
theorem decodeOfEncode : Obligations.DecodeOfEncode := by
  intro i hwf
  cases i with
  | nop => rw [encode_nop, decode_nopWord]
  | rd8 r => rw [encode_rd8, decode_rd8Word]
  | wr8 r v => rw [encode_wr8, decode_wr8Word, lowByte, extractLsb'_setWidth_16 (by decide)]
  | rd16 p => rw [encode_rd16, decode_rd16Word]
  | wr16 p v => rw [encode_wr16, decode_wr16Word]
  | enc f => rw [encode_enc, decode_encWord, extractLsb'_setWidth_16 (by decide)]
  | dec b => rw [encode_dec, decode_decWord, lowByte, extractLsb'_setWidth_16 (by decide)]
  | reserved w => exact decode_of_isReservedWord hwf

/-! ## A word from its decoding -/

/-- R41, R42: only a reserved word decodes to a reserved command, the one that carries it. -/
theorem decode_eq_reserved_iff (w u : Cmd) : decode w = .reserved u ↔ isReservedWord w = true ∧ u = w := by
  constructor
  · intro hdecode
    rcases word_cases w with h | ⟨d, rfl | ⟨r, rfl⟩ | ⟨r, rfl⟩ | ⟨p, rfl⟩ | ⟨p, rfl⟩ | rfl | rfl⟩
    · rw [decode_of_isReservedWord h] at hdecode
      exact ⟨h, (Instr.reserved.inj hdecode).symm⟩
    all_goals simp at hdecode
  · rintro ⟨h, rfl⟩
    exact decode_of_isReservedWord h

theorem wellFormed_decode (w : Cmd) : (decode w).wellFormed = true := by
  cases hdecode : decode w with
  | reserved u =>
    obtain ⟨h, rfl⟩ := (decode_eq_reserved_iff w u).1 hdecode
    exact h
  | nop | rd8 _ | wr8 _ _ | rd16 _ | wr16 _ _ | enc _ | dec _ => rfl

/-! R38's table: the data bits that have an effect, by the row of the word. -/

theorem effectiveBits_append (d : Word16) (c : Byte) : effectiveBits (d ++ c) = effectiveBits (0x0000#16 ++ c) := by
  simp only [effectiveBits, and_mask_FF, and_mask_C7, and_mask_E7]

/-- R42: every bit of the control byte has an effect. -/
theorem exists_effectiveBits_eq (w : Cmd) : ∃ m : Word16, effectiveBits w = m ++ 0xFF#8 := by
  unfold effectiveBits
  split_ifs
  · exact ⟨0x00FF#16, rfl⟩
  · exact ⟨0xFFFF#16, rfl⟩
  · exact ⟨0x000F#16, rfl⟩
  · exact ⟨0x00FF#16, rfl⟩
  · exact ⟨0x0000#16, rfl⟩

theorem append_and_mask (d m : Word16) (c : Byte) : (d ++ c) &&& (m ++ 0xFF#8) = (d &&& m) ++ c := by
  rw [BitVec.and_append, show 0xFF#8 = BitVec.allOnes 8 from rfl, BitVec.and_allOnes]

section EffectiveRows

variable (d : Word16) (r : Reg) (p : Pair)

theorem nopWord_and_effectiveBits : (d ++ 0x00#8) &&& effectiveBits (d ++ 0x00#8) = 0x0000#16 ++ 0x00#8 := by
  rw [effectiveBits_append, show effectiveBits _ = 0x0000#16 ++ 0xFF#8 from rfl, append_and_mask, BitVec.and_zero]

theorem rd8Word_and_effectiveBits :
    (d ++ rd8Control r) &&& effectiveBits (d ++ rd8Control r) = 0x0000#16 ++ rd8Control r := by
  have hbits : effectiveBits (0x0000#16 ++ rd8Control r) = 0x0000#16 ++ 0xFF#8 := by cases r <;> rfl
  rw [effectiveBits_append, hbits, append_and_mask, BitVec.and_zero]

theorem wr8Word_and_effectiveBits :
    (d ++ wr8Control r) &&& effectiveBits (d ++ wr8Control r) = (lowByte d).setWidth 16 ++ wr8Control r := by
  have hbits : effectiveBits (0x0000#16 ++ wr8Control r) = 0x00FF#16 ++ 0xFF#8 := by cases r <;> rfl
  rw [effectiveBits_append, hbits, append_and_mask, setWidth_lowByte]

theorem rd16Word_and_effectiveBits :
    (d ++ rd16Control p) &&& effectiveBits (d ++ rd16Control p) = 0x0000#16 ++ rd16Control p := by
  have hbits : effectiveBits (0x0000#16 ++ rd16Control p) = 0x0000#16 ++ 0xFF#8 := by cases p <;> rfl
  rw [effectiveBits_append, hbits, append_and_mask, BitVec.and_zero]

theorem wr16Word_and_effectiveBits :
    (d ++ wr16Control p) &&& effectiveBits (d ++ wr16Control p) = d ++ wr16Control p := by
  have hbits : effectiveBits (0x0000#16 ++ wr16Control p) = BitVec.allOnes 16 ++ 0xFF#8 := by cases p <;> rfl
  rw [effectiveBits_append, hbits, append_and_mask, BitVec.and_allOnes]

theorem encWord_and_effectiveBits :
    (d ++ 0x05#8) &&& effectiveBits (d ++ 0x05#8) = (d.extractLsb' 0 4).setWidth 16 ++ 0x05#8 := by
  have hflags : d &&& 0x000F#16 = (d.extractLsb' 0 4).setWidth 16 := by
    apply BitVec.eq_of_getLsbD_eq
    intro i hi
    interval_cases i <;> simp
  rw [effectiveBits_append, show effectiveBits _ = 0x000F#16 ++ 0xFF#8 from rfl, append_and_mask, hflags]

theorem decWord_and_effectiveBits :
    (d ++ 0x06#8) &&& effectiveBits (d ++ 0x06#8) = (lowByte d).setWidth 16 ++ 0x06#8 := by
  rw [effectiveBits_append, show effectiveBits _ = 0x00FF#16 ++ 0xFF#8 from rfl, append_and_mask, setWidth_lowByte]

end EffectiveRows

/-- Settles O2, row by row. -/
theorem encodeOfDecode : Obligations.EncodeOfDecode := by
  intro w
  by_cases h : isReservedWord w = true
  · rw [if_pos h, decode_of_isReservedWord h]
    rfl
  · rw [if_neg h]
    obtain ⟨d, rfl | ⟨r, rfl⟩ | ⟨r, rfl⟩ | ⟨p, rfl⟩ | ⟨p, rfl⟩ | rfl | rfl⟩ := (word_cases w).resolve_left h
    · rw [decode_nopWord, encode_nop, nopWord_and_effectiveBits]
    · rw [decode_rd8Word, encode_rd8, rd8Word_and_effectiveBits]
    · rw [decode_wr8Word, encode_wr8, wr8Word_and_effectiveBits]
    · rw [decode_rd16Word, encode_rd16, rd16Word_and_effectiveBits]
    · rw [decode_wr16Word, encode_wr16, wr16Word_and_effectiveBits]
    · rw [decode_encWord, encode_enc, encWord_and_effectiveBits]
    · rw [decode_decWord, encode_dec, decWord_and_effectiveBits]

/-! ## Ignored bits -/

/-- R42: clearing the bits without an effect leaves the control byte, and so whether the word is reserved. -/
theorem isReservedWord_and_effectiveBits (w : Cmd) : isReservedWord (w &&& effectiveBits w) = isReservedWord w := by
  obtain ⟨m, hm⟩ := exists_effectiveBits_eq w
  obtain ⟨d, c, rfl⟩ := exists_data_control w
  rw [hm, append_and_mask, isReservedWord_append, isReservedWord_append d]

/-- A word that is not reserved decodes as the word without its ignored bits. -/
theorem decode_and_effectiveBits {w : Cmd} (h : isReservedWord w = false) :
    decode (w &&& effectiveBits w) = decode w := by
  have hencode : encode (decode w) = w &&& effectiveBits w := (encodeOfDecode w).trans (if_neg (by simp [h]))
  rw [← hencode]
  exact decodeOfEncode _ (wellFormed_decode w)

/-- Words that agree on the bits with an effect have the same bits with an effect: the control byte picks them. -/
theorem effectiveBits_eq_of_agree {w w' : Cmd} (h : w &&& effectiveBits w = w' &&& effectiveBits w) :
    effectiveBits w' = effectiveBits w := by
  obtain ⟨m, hm⟩ := exists_effectiveBits_eq w
  obtain ⟨d, c, rfl⟩ := exists_data_control w
  obtain ⟨d', c', rfl⟩ := exists_data_control w'
  rw [hm, append_and_mask, append_and_mask] at h
  have hcontrol : c = c' := by simpa only [BitVec.extractLsb'_append_eq_right] using congrArg (·.extractLsb' 0 8) h
  rw [effectiveBits_append d, effectiveBits_append d', hcontrol]

/-- Settles O3: two words that agree on the bits with an effect decode to the same command, or are both reserved. -/
theorem dataOperandsAndIgnoredBits : Obligations.DataOperandsAndIgnoredBits := by
  refine ⟨decode_wr8Word, decode_wr16Word, decode_encWord, decode_decWord, fun w w' s hagree => ?_⟩
  have hbits : w &&& effectiveBits w = w' &&& effectiveBits w' := by rwa [effectiveBits_eq_of_agree hagree]
  have hsame : isReservedWord w' = isReservedWord w := by
    rw [← isReservedWord_and_effectiveBits w', ← hbits, isReservedWord_and_effectiveBits]
  cases h : isReservedWord w with
  | true =>
    rw [decode_of_isReservedWord h, decode_of_isReservedWord (hsame.trans h)]
    exact ⟨_, exec_reserved w s, exec_reserved w' s⟩
  | false =>
    rw [← decode_and_effectiveBits h, ← decode_and_effectiveBits (hsame.trans h), hbits]
    obtain ⟨t, hexec, -⟩ := exec_next (decode (w' &&& effectiveBits w')) s
    exact ⟨t, hexec, hexec⟩

/-! ## The control byte and its fields -/

/-- R42: the data bits have no part in which row a word selects. -/
theorem rowOf_decode_append (d : Word16) (c : Byte) : rowOf (decode (d ++ c)) = rowOf (decode (0x0000#16 ++ c)) := by
  rcases control_cases c with h | rfl | ⟨r, rfl⟩ | ⟨r, rfl⟩ | ⟨p, rfl⟩ | ⟨p, rfl⟩ | rfl | rfl
  · rw [decode_of_isReservedWord h, decode_of_isReservedWord ((isReservedWord_append d c).trans h)]
    rfl
  all_goals simp only [decode_nopWord, decode_rd8Word, decode_wr8Word, decode_rd16Word, decode_wr16Word,
    decode_encWord, decode_decWord, rowOf]

/-- R37's count of the control bytes of each row. -/
theorem controlBytesOfRow_eq : (List.range 8).map controlBytesOfRow = [1, 8, 8, 4, 4, 1, 1, 229] := by
  rfl

/-- Settles O4: `decode_eq_reserved_iff` with R41's clauses written out. -/
theorem reservedWordsAreTheFourClauses : Obligations.ReservedWordsAreTheFourClauses := by
  refine ⟨fun w => ?_, fun w u h => ((decode_eq_reserved_iff w u).1 h).2, rowOf_decode_append, controlBytesOfRow_eq,
    fun w s => ⟨_, exec_reserved w s⟩⟩
  rw [decode_eq_reserved_iff, and_iff_left rfl, isReservedWord_iff, cmdPairSelLegal_eq, Bool.not_eq_false']
  rfl

/-- R35: the eight selectors name the cells in the order of the table. -/
theorem regTable_getElem?_toNat : ∀ n : BitVec 3, regTable[n.toNat]? = some (regOfSel n) := by decide

/-- R36: the selectors with `sel[2] = 0` name the pairs in the order of the table, the others none. -/
theorem pairTable_getElem?_toNat : ∀ n : BitVec 3,
    pairTable[n.toNat]? = if !n.getLsbD 2 then some (pairOfSel (n.extractLsb' 0 2)) else none := by decide

/-- WR8's operand straight from the command word (R33, R38). -/
theorem byteOperand_eq (w : Cmd) : byteOperand w = w.extractLsb' 8 8 := by
  apply BitVec.eq_of_getLsbD_eq
  intro i hi
  simp [byteOperand, cmdData, hi, show i < 16 by omega]

/-- Settles O5. -/
theorem registerSelectors : Obligations.RegisterSelectors := by
  intro w r hrsv hsel
  have hreg : regOfSel (cmdSel w) = r := Option.some.inj ((regTable_getElem?_toNat _).symm.trans hsel)
  have hrsv : cmdRsv w = 0b00#2 := hrsv
  refine ⟨fun hop => ?_, fun hop => ?_⟩
  · simp [decode, hrsv, show cmdOp w = 0b001#3 from hop, hreg]
  · simp [decode, hrsv, show cmdOp w = 0b010#3 from hop, hreg, byteOperand_eq]

/-- Settles O6. -/
theorem pairSelectors : Obligations.PairSelectors := by
  refine ⟨fun w p hrsv hsel => ?_, fun w hhigh hop => ?_⟩
  · have hrsv : cmdRsv w = 0b00#2 := hrsv
    have hpair := (pairTable_getElem?_toNat (cmdSel w)).symm.trans hsel
    obtain ⟨hlegal, hpair⟩ := Option.ite_none_right_eq_some.1 hpair
    have hlegal : cmdPairSelLegal w = true := hlegal
    have hpair : pairOfSel (cmdPairSel w) = p := Option.some.inj hpair
    refine ⟨fun hop => ?_, fun hop => ?_⟩
    · simp [decode, hrsv, show cmdOp w = 0b011#3 from hop, hlegal, hpair]
    · simp [decode, hrsv, show cmdOp w = 0b100#3 from hop, hlegal, hpair, wordOperand, cmdData]
  · have hlegal : cmdPairSelLegal w = false := by rw [cmdPairSelLegal_eq, hhigh, Bool.not_true]
    exact decode_of_isReservedWord ((isReservedWord_iff w).2 (.inr (.inr (.inr ⟨hop, hlegal⟩))))

/-- Settles O7, by running `decode` on each of the words. -/
theorem workedWordsDecode : Obligations.WorkedWordsDecode := by
  unfold Obligations.WorkedWordsDecode
  decide

/-! ## The output of each command -/

/-- A zero-extended byte, written as a concatenation. -/
theorem setWidth_byte_eq_append (v : Byte) : v.setWidth 16 = 0x00#8 ++ v :=
  (BitVec.setWidth_eq_append (by decide)).trans rfl

theorem setWidth_flags_eq_append (f : Flags4) : f.setWidth 16 = 0x000#12 ++ f :=
  (BitVec.setWidth_eq_append (by decide)).trans rfl

/-- Settles O16. -/
theorem outputOfEachCommand : Obligations.OutputOfEachCommand := by
  intro s r p v b x f w
  refine ⟨⟨_, exec_nop s, rfl⟩, ⟨_, exec_wr8 r v s, rfl⟩, ⟨_, exec_wr16 p x s, rfl⟩, ⟨_, exec_reserved w s, rfl⟩,
    ⟨_, runInput_reset w s, rfl⟩, ⟨_, exec_rd8 r s, setWidth_byte_eq_append _⟩, ⟨_, exec_rd16 p s, ?_⟩,
    ⟨_, exec_enc f s, ?_⟩, ⟨_, exec_dec b s, setWidth_flags_eq_append _⟩⟩
  · rw [State.drive_rdata, pairCells_fst, pairCells_snd, Cells.getPair]
  · rw [State.drive_rdata, setWidth_byte_eq_append, flagsEncode]
    exact BitVec.append_assoc'.trans (BitVec.cast_eq _ _)

end Sys2Proof

/-! # The assembler

What a line assembles to is said once per mnemonic, for immediates of any size (`assembleLine_wr8` and its companions),
in the control bytes of R46. The text of a line is read through its tokens (`tokens_eq_nil_iff`, `tokens_comment`), and a
line that begins with a mnemonic through the line which the mnemonic and its operands write (`assembleTextLine_space`). -/

namespace Sys2Proof

open Sys2Proof.Machine Sys2Proof.Safety

/-! ## The step each line assembles to -/

/-- R44: what a line with an immediate of `n` bits makes of a number. -/
theorem immediate_map {α : Type} (n k : Nat) (f : BitVec n → α) :
    (immediate n k).map f = if k < 2 ^ n then some (f (BitVec.ofNat n k)) else none := by
  rw [immediate, Option.map_if]

/-- R44, R46: a command whose word is its operand, zero-extended to the data bits, above a control byte. -/
theorem immediate_map_encode {n : Nat} (hn : n ≤ 16) {command : BitVec n → Instr} {control : Byte}
    (hencode : ∀ v, encode (command v) = v.setWidth 16 ++ control) (k : Nat) :
    ((immediate n k).map fun v => commandStep (encode (command v))) =
      if k < 2 ^ n then some ⟨false, BitVec.ofNat 16 k ++ control⟩ else none := by
  rw [immediate_map]
  refine ite_congr rfl (fun hk => ?_) fun _ => rfl
  rw [hencode, BitVec.setWidth_ofNat_of_le_of_lt hn hk, commandStep]

theorem assembleLine_nop : assembleLine .nop = some ⟨false, 0x000000#24⟩ := rfl

theorem assembleLine_rd8 (r : Reg) : assembleLine (.rd8 r) = some ⟨false, 0x0000#16 ++ rd8Control r⟩ := by
  rw [assembleLine, encode_rd8, commandStep]

theorem assembleLine_wr8 (r : Reg) (n : Nat) : assembleLine (.wr8 r n) =
    if n < 2 ^ 8 then some ⟨false, BitVec.ofNat 16 n ++ wr8Control r⟩ else none :=
  immediate_map_encode (by decide) (encode_wr8 r) n

theorem assembleLine_rd16 (p : Pair) : assembleLine (.rd16 p) = some ⟨false, 0x0000#16 ++ rd16Control p⟩ := by
  rw [assembleLine, encode_rd16, commandStep]

theorem assembleLine_wr16 (p : Pair) (n : Nat) : assembleLine (.wr16 p n) =
    if n < 2 ^ 16 then some ⟨false, BitVec.ofNat 16 n ++ wr16Control p⟩ else none :=
  immediate_map_encode (by decide) (fun v => (encode_wr16 p v).trans (by rw [BitVec.setWidth_eq])) n

theorem assembleLine_enc (n : Nat) : assembleLine (.enc n) =
    if n < 2 ^ 4 then some ⟨false, BitVec.ofNat 16 n ++ 0x05#8⟩ else none :=
  immediate_map_encode (by decide) encode_enc n

theorem assembleLine_encSet (z n h c : Bool) : assembleLine (.encSet ⟨z, n, h, c⟩) = some ⟨false,
    0x000#12 ++ BitVec.ofBool z ++ BitVec.ofBool n ++ BitVec.ofBool h ++ BitVec.ofBool c ++ 0x05#8⟩ := by
  revert z n h c
  decide

theorem assembleLine_dec (n : Nat) : assembleLine (.dec n) =
    if n < 2 ^ 8 then some ⟨false, BitVec.ofNat 16 n ++ 0x06#8⟩ else none :=
  immediate_map_encode (by decide) encode_dec n

theorem assembleLine_word (n : Nat) : assembleLine (.word n) =
    if n < 2 ^ 24 then some ⟨false, BitVec.ofNat 24 n⟩ else none :=
  immediate_map 24 n commandStep

/-- Settles O42: an operand's own number fits its field. -/
theorem assemblyOfEachMnemonic : Obligations.AssemblyOfEachMnemonic := by
  refine ⟨assembleLine_nop, assembleLine_rd8, fun r v => ?_, assembleLine_rd16, fun p v => ?_, fun f => ?_, fun b => ?_⟩
  · rw [assembleLine_wr8, if_pos v.isLt, BitVec.ofNat_toNat]
  · rw [assembleLine_wr16, if_pos v.isLt, BitVec.ofNat_toNat, BitVec.setWidth_eq]
  · rw [assembleLine_enc, if_pos f.isLt, BitVec.ofNat_toNat]
  · rw [assembleLine_dec, if_pos b.isLt, BitVec.ofNat_toNat]

/-- Settles O43. -/
theorem wideImmediatesRefused : Obligations.WideImmediatesRefused := by
  intro r p n
  rw [assembleLine_wr8, assembleLine_wr16, assembleLine_enc, assembleLine_dec, assembleLine_word]
  exact ⟨Option.isSome_ite, Option.isSome_ite, Option.isSome_ite, Option.isSome_ite, Option.isSome_ite⟩

theorem immediate_toNat {n : Nat} (v : BitVec n) : immediate n v.toNat = some v := by
  rw [immediate, if_pos v.isLt, BitVec.ofNat_toNat, BitVec.setWidth_eq]

/-- R44: the line that writes a command assembles to the step that presents its word. -/
theorem assembleLine_disassemble (i : Instr) : assembleLine (disassemble i) = some (commandStep (encode i)) := by
  cases i with
  | nop | rd8 _ | rd16 _ => rfl
  | wr8 _ _ | wr16 _ _ | enc _ | dec _ | reserved _ =>
    rw [disassemble, assembleLine, immediate_toNat]
    rfl

/-- Settles O44: the word is the command's, which decodes to it by `decodeOfEncode`. -/
theorem assembledCommandDecodes : Obligations.AssembledCommandDecodes :=
  fun i hwf => ⟨_, assembleLine_disassemble i, rfl, decodeOfEncode i hwf⟩

/-! ## Blank lines and comments -/

theorem flushText_eq_nil_iff (col : List Char) (rest : List AsmToken) : flushText col rest = [] ↔ col = [] ∧ rest = [] := by
  cases col <;> simp [flushText]

theorem isBlankLine_cons (c : Char) (cs : List Char) :
    isBlankLine (c :: cs) = (c == ';' || (isBlankChar c && isBlankLine cs)) := by
  simp only [isBlankLine, isBlankChar, List.takeWhile_cons]
  cases hc : c == ';' <;> simp [bne, hc]

/-- A line has no token exactly if nothing is collected and the rest is blank. -/
theorem tokens_eq_nil_iff (col cs : List Char) : tokens col cs = [] ↔ col = [] ∧ isBlankLine cs = true := by
  induction cs generalizing col with
  | nil => simp [tokens, flushText_eq_nil_iff, isBlankLine]
  | cons c cs ih =>
    rw [tokens, isBlankLine_cons]
    split_ifs with hcomment hblank
    · simp [hcomment, flushText_eq_nil_iff]
    all_goals simp [hcomment, hblank, flushText_eq_nil_iff, ih]

/-- R44: what stands in a comment makes no token. -/
theorem tokens_comment (col cs comment : List Char) : tokens col (cs ++ ';' :: comment) = tokens col cs := by
  induction cs generalizing col with
  | nil => rfl
  | cons c cs ih => simp only [List.cons_append, tokens, ih]

/-! ## Lines and texts -/

/-! A blank line of text asks for no step (log entry 7), any other that assembles for one (R45). -/

theorem assembleTextLine_of_blank {cs : List Char} (h : isBlankLine cs = true) : assembleTextLine cs = some [] := by
  rw [assembleTextLine, (tokens_eq_nil_iff [] cs).2 ⟨rfl, h⟩]

theorem exists_step_of_not_blank {cs : List Char} {xs : List PortInput} (h : assembleTextLine cs = some xs)
    (hblank : isBlankLine cs = false) : ∃ x, xs = [x] := by
  cases htokens : tokens [] cs with
  | nil => exact absurd ((tokens_eq_nil_iff [] cs).1 htokens).2 (by simp [hblank])
  | cons t ts =>
    rw [assembleTextLine_of_tokens htokens] at h
    obtain ⟨line, -, hline⟩ := Option.bind_eq_some_iff.1 h
    obtain ⟨x, -, hx⟩ := Option.map_eq_some_iff.1 hline
    exact ⟨x, hx.symm⟩

/-- R44, R45: only RST asks for a reset step. -/
theorem rst_of_assembleLine {line : AsmLine} {x : PortInput} (h : assembleLine line = some x) :
    x.rst = true ↔ line = .rst := by
  cases line with
  | rst =>
    obtain rfl : resetLineStep = x := Option.some.inj h
    exact iff_of_true rfl rfl
  | nop | rd8 _ | rd16 _ | encSet _ =>
    obtain rfl := Option.some.inj h
    exact iff_of_false Bool.false_ne_true nofun
  | wr8 _ _ | wr16 _ _ | enc _ | dec _ | word _ =>
    obtain ⟨_, -, rfl⟩ := Option.map_eq_some_iff.1 h
    exact iff_of_false Bool.false_ne_true nofun

theorem assembleLines_cons_eq_some_iff (l : List Char) (ls : List (List Char)) (zs : List PortInput) :
    assembleLines (l :: ls) = some zs ↔
      ∃ xs ys, assembleTextLine l = some xs ∧ assembleLines ls = some ys ∧ zs = xs ++ ys := by
  rw [assembleLines]
  cases assembleTextLine l <;> cases assembleLines ls <;> simp [eq_comm]

/-- A list of lines assembles exactly when every line does. -/
theorem exists_assembleLines_iff (ls : List (List Char)) :
    (∃ xs, assembleLines ls = some xs) ↔ ∀ l ∈ ls, ∃ xs, assembleTextLine l = some xs := by
  induction ls with
  | nil => simp [assembleLines]
  | cons l ls ih =>
    simp only [assembleLines_cons_eq_some_iff, List.forall_mem_cons, ← ih]
    constructor
    · rintro ⟨_, xs, ys, hl, hls, -⟩
      exact ⟨⟨xs, hl⟩, ys, hls⟩
    · rintro ⟨⟨xs, hl⟩, ys, hls⟩
      exact ⟨_, xs, ys, hl, hls, rfl⟩

/-- The steps of a list of lines are those of its lines one after the other. -/
theorem eq_flatMap_of_assembleLines (ls : List (List Char)) (zs : List PortInput) (h : assembleLines ls = some zs) :
    zs = ls.flatMap fun l => (assembleTextLine l).getD [] := by
  induction ls generalizing zs with
  | nil => exact (Option.some.inj h).symm
  | cons l ls ih =>
    obtain ⟨xs, ys, hl, hls, rfl⟩ := (assembleLines_cons_eq_some_iff l ls zs).1 h
    rw [List.flatMap_cons, hl, ← ih ys hls, Option.getD_some]

/-- The characters of a line up to a line end are collected. -/
theorem splitLines_append {l : List Char} (h : '\n' ∉ l) (col rest : List Char) :
    splitLines col (l ++ rest) = splitLines (l.reverse ++ col) rest := by
  induction l generalizing col with
  | nil => rfl
  | cons c l ih =>
    obtain ⟨hc, hl⟩ := not_or.1 (mt List.mem_cons.2 h)
    rw [List.cons_append, splitLines, if_neg (by simpa using Ne.symm hc), ih hl, List.reverse_cons, List.append_assoc]
    rfl

theorem splitLines_newline (col rest : List Char) : splitLines col ('\n' :: rest) = col.reverse :: splitLines [] rest :=
  rfl

/-- Lines joined by line ends are split into those lines. -/
theorem splitLines_intercalate (l : List Char) (ls : List (List Char)) (h : ∀ k ∈ l :: ls, '\n' ∉ k) :
    splitLines [] (['\n'].intercalate (l :: ls)) = l :: ls := by
  induction ls generalizing l with
  | nil =>
    have hsplit := splitLines_append (h l (List.mem_cons_self ..)) [] []
    rw [List.append_nil, List.append_nil] at hsplit
    rw [List.intercalate_singleton, hsplit, splitLines, List.reverse_reverse]
  | cons l' ls ih =>
    rw [List.intercalate_cons_cons, List.append_assoc, splitLines_append (h l (List.mem_cons_self ..)),
      List.singleton_append, splitLines_newline, ih l' fun k hk => h k (List.mem_cons_of_mem _ hk), List.append_nil,
      List.reverse_reverse]

/-- Settles O45. -/
theorem oneStepPerLine : Obligations.OneStepPerLine := by
  refine ⟨fun cs xs h hblank => ?_, fun cs h => assembleTextLine_of_blank h, fun cs => ?_,
    fun line x h => rst_of_assembleLine h, exists_assembleLines_iff, eq_flatMap_of_assembleLines, fun ls hne h => ?_⟩
  · obtain ⟨x, rfl⟩ := exists_step_of_not_blank h hblank
    rfl
  · rw [tokens_eq_nil_iff, and_iff_right rfl]
  · obtain ⟨l, ls, rfl⟩ := List.exists_cons_of_ne_nil hne
    rw [assemble, splitLines_intercalate l ls h]

/-! ## Comments and letter case -/

/-- The characters that separate tokens, are tokens of their own or start a comment (R44, log entry 7). -/
def separators : List Char := [';', ' ', '\t', '\r', ',', Char.ofNat 123, Char.ofNat 125]

theorem mem_separators_of_not_isTextChar {c : Char} (h : isTextChar c = false) : c ∈ separators := by
  simpa [isTextChar, isBlankChar, separators, or_assoc, Decidable.or_iff_not_imp_left] using h

/-- Letters, digits and the point of .word stand in text tokens. -/
theorem isTextChar_of_mnemonicChar {c : Char} (h : c.isAlphanum = true ∨ c = '.') : isTextChar c = true := by
  have key : separators.all (fun s => !(s.isAlphanum || s == '.')) = true := by decide
  by_contra hc
  have hsep := List.all_eq_true.1 key c (mem_separators_of_not_isTextChar (Bool.eq_false_of_not_eq_true hc))
  simp only [Bool.not_eq_true', Bool.or_eq_false_iff, beq_eq_false_iff_ne] at hsep
  exact h.elim (by simp [hsep.1]) hsep.2

/-- A text character stays one in capitals. -/
theorem isTextChar_toUpper {c : Char} (h : isTextChar c = true) : isTextChar c.toUpper = true := by
  rw [← capital_eq_toUpper, capital]
  split
  case isTrue hlower =>
    have key : ∀ n < 123, 97 ≤ n → isTextChar (Char.ofNat (n - 32)) = true := by decide
    exact key c.toNat (by omega) hlower.1
  case isFalse => exact h

/-- R44: two mnemonics that differ in letter case only consist of text characters alike. -/
theorem isTextChar_of_sameCapitals {m m' : List Char} (hm : ∀ c ∈ m, isTextChar c = true)
    (hcase : m.map Char.toUpper = m'.map Char.toUpper) : ∀ c ∈ m', isTextChar c = true := by
  intro c hc
  have hmem : c.toUpper ∈ m.map Char.toUpper := hcase ▸ List.mem_map_of_mem hc
  obtain ⟨d, hd, hcapital⟩ := List.mem_map.1 hmem
  exact isTextChar_of_toUpper (hcapital ▸ isTextChar_toUpper (hm d hd))

theorem lineOfTokens_of_sameCapitals {m m' : List Char} (hcase : m.map Char.toUpper = m'.map Char.toUpper)
    (rest : List AsmToken) : lineOfTokens (.text m :: rest) = lineOfTokens (.text m' :: rest) := by
  rw [lineOfTokens, lineOfTokens, map_capital, map_capital, hcase]

theorem assembleTextLine_of_sameCapitals {m m' : List Char} (rest : List Char) (hm : ∀ c ∈ m, isTextChar c = true)
    (hcase : m.map Char.toUpper = m'.map Char.toUpper) :
    assembleTextLine (m ++ ' ' :: rest) = assembleTextLine (m' ++ ' ' :: rest) := by
  by_cases hnil : m = []
  · subst hnil
    rw [List.map_eq_nil_iff.1 hcase.symm]
  · have hnil' : m' ≠ [] := by
      rintro rfl
      exact hnil (List.map_eq_nil_iff.1 hcase)
    rw [assembleTextLine_of_tokens (tokens_text_space rest hnil hm),
      assembleTextLine_of_tokens (tokens_text_space rest hnil' (isTextChar_of_sameCapitals hm hcase)),
      lineOfTokens_of_sameCapitals hcase]

/-- Settles O46. -/
theorem commentAndMnemonicCaseIgnored : Obligations.CommentAndMnemonicCaseIgnored := by
  refine ⟨fun cs comment => ?_, fun m m' rest hcase => lineOfTokens_of_sameCapitals hcase rest,
    fun m m' rest hm hcase => ?_⟩
  · rw [assembleTextLine, tokens_comment, assembleTextLine]
  · exact assembleTextLine_of_sameCapitals rest (fun c hc => isTextChar_of_mnemonicChar (hm c hc)) hcase

/-! ## The lines of text of each mnemonic -/

section MnemonicText

variable {m name : List Char} {line : AsmLine}

/-- R44: a line that is a mnemonic in any letter case. -/
theorem assembleTextLine_mnemonic (h : writesMnemonic m name) (hname : name ≠ [] ∧ name.all isTextChar = true)
    (hline : lineOfMnemonic name [] = some line) : assembleTextLine m = (assembleLine line).map fun x => [x] := by
  have htokens := tokens_text_end (ne_nil_of_writesMnemonic h hname.1) (isTextChar_of_writesMnemonic h hname.2)
  rw [assembleTextLine_of_tokens htokens, lineOfTokens_text h, hline, Option.bind_some]

/-- R44: a line that is a mnemonic in any letter case, a space and operands. -/
theorem assembleTextLine_space (h : writesMnemonic m name) (hname : name ≠ [] ∧ name.all isTextChar = true)
    {operands : List Char} (hline : lineOfMnemonic name (tokens [] operands) = some line) :
    assembleTextLine (m ++ ' ' :: operands) = (assembleLine line).map fun x => [x] := by
  have htokens := tokens_text_space operands (ne_nil_of_writesMnemonic h hname.1) (isTextChar_of_writesMnemonic h hname.2)
  rw [assembleTextLine_of_tokens htokens, lineOfTokens_text h, hline, Option.bind_some]

end MnemonicText

/-! The operands. -/

theorem tokens_number {t : List Char} {n : Nat} (h : writesNumber t n) : tokens [] t = [.text t] :=
  tokens_text_end (isTextChar_of_writesNumber h).1 (isTextChar_of_writesNumber h).2

theorem tokens_name_number {name t : List Char} {n : Nat} (hname : name ≠ [] ∧ name.all isTextChar = true)
    (h : writesNumber t n) : tokens [] (name ++ ',' :: ' ' :: t) = [.text name, .comma, .text t] := by
  rw [tokens_text_comma _ hname.1 (List.all_eq_true.1 hname.2), tokens_space, tokens_number h]

theorem regOfName_regText (r : Reg) : regOfName [regText r] = some r := by cases r <;> rfl

theorem pairOfName_pairText (p : Pair) : pairOfName (pairText p) = some p := by cases p <;> rfl

theorem isTextChar_regText (r : Reg) : [regText r] ≠ [] ∧ [regText r].all isTextChar = true := by
  cases r <;> decide

theorem isTextChar_pairText (p : Pair) : pairText p ≠ [] ∧ (pairText p).all isTextChar = true := by
  cases p <;> decide

/-! The line that each mnemonic and its operands' tokens write. -/

theorem lineOfMnemonic_rd8 (r : Reg) : lineOfMnemonic ['R', 'D', '8'] (tokens [] [regText r]) = some (.rd8 r) := by
  cases r <;> rfl

theorem lineOfMnemonic_rd16 (p : Pair) :
    lineOfMnemonic ['R', 'D', '1', '6'] (tokens [] (pairText p)) = some (.rd16 p) := by
  cases p <;> rfl

section NumberOperand

variable {t : List Char} {n : Nat}

theorem lineOfMnemonic_wr8 (r : Reg) (h : writesNumber t n) :
    lineOfMnemonic ['W', 'R', '8'] (tokens [] ([regText r] ++ ',' :: ' ' :: t)) = some (.wr8 r n) := by
  rw [tokens_name_number (isTextChar_regText r) h]
  simp [lineOfMnemonic, regOfName_regText, immediateOfText_of_writesNumber h]

theorem lineOfMnemonic_wr16 (p : Pair) (h : writesNumber t n) :
    lineOfMnemonic ['W', 'R', '1', '6'] (tokens [] (pairText p ++ ',' :: ' ' :: t)) = some (.wr16 p n) := by
  rw [tokens_name_number (isTextChar_pairText p) h]
  simp [lineOfMnemonic, pairOfName_pairText, immediateOfText_of_writesNumber h]

theorem lineOfMnemonic_enc (h : writesNumber t n) :
    lineOfMnemonic ['E', 'N', 'C'] (tokens [] t) = some (.enc n) := by
  rw [tokens_number h]
  simp [lineOfMnemonic, immediateOfText_of_writesNumber h]

theorem lineOfMnemonic_dec (h : writesNumber t n) :
    lineOfMnemonic ['D', 'E', 'C'] (tokens [] t) = some (.dec n) := by
  rw [tokens_number h]
  simp [lineOfMnemonic, immediateOfText_of_writesNumber h]

theorem lineOfMnemonic_word (h : writesNumber t n) :
    lineOfMnemonic ['.', 'W', 'O', 'R', 'D'] (tokens [] t) = some (.word n) := by
  rw [tokens_number h]
  simp [lineOfMnemonic, immediateOfText_of_writesNumber h]

end NumberOperand

/-- R44: the set form, for each of the 16 flag sets. -/
theorem lineOfMnemonic_encSet (z n h c : Bool) :
    lineOfMnemonic ['E', 'N', 'C'] (tokens [] (flagSetText z n h c)) = some (.encSet ⟨z, n, h, c⟩) := by
  revert z n h c
  decide

/-- Settles O48: the line each text writes, and the step that line assembles to. -/
theorem textOfRegisterFileLines : Obligations.TextOfRegisterFileLines := by
  refine ⟨fun m h => ?_, fun m r h => ?_, fun m p h => ?_, fun m r t n h hn => ?_, fun m p t n h hn => ?_⟩
  · exact assembleTextLine_mnemonic h (by decide) rfl
  · rw [assembleTextLine_space h (by decide) (lineOfMnemonic_rd8 r), assembleLine_rd8, Option.map_some]
  · rw [assembleTextLine_space h (by decide) (lineOfMnemonic_rd16 p), assembleLine_rd16, Option.map_some]
  · rw [← List.singleton_append (x := regText r), assembleTextLine_space h (by decide) (lineOfMnemonic_wr8 r hn),
      assembleLine_wr8, Option.map_if]
  · rw [List.append_assoc, List.cons_append, assembleTextLine_space h (by decide) (lineOfMnemonic_wr16 p hn),
      assembleLine_wr16, Option.map_if]

/-- Settles O49, in the same way. -/
theorem textOfCodecResetAndWordLines : Obligations.TextOfCodecResetAndWordLines := by
  refine ⟨fun m t n h hn => ?_, fun m z n h c hm => ?_, fun m t n h hn => ?_, fun m h => ?_, fun m t n h hn => ?_⟩
  · rw [assembleTextLine_space h (by decide) (lineOfMnemonic_enc hn), assembleLine_enc, Option.map_if]
  · rw [assembleTextLine_space hm (by decide) (lineOfMnemonic_encSet z n h c), assembleLine_encSet, Option.map_some]
  · rw [assembleTextLine_space h (by decide) (lineOfMnemonic_dec hn), assembleLine_dec, Option.map_if]
  · exact ⟨_, assembleTextLine_mnemonic h (by decide) rfl⟩
  · rw [assembleTextLine_space h (by decide) (lineOfMnemonic_word hn), assembleLine_word, Option.map_if]

end Sys2Proof

/-! # The register file

A pair read after a write to its cells, in concatenated form (`Cells.getPair_setPair` and its companions), gives the laws
of the register file; `exec_next` gives the frame of every command, and `step_of_cons` and `step_of_nil` say what a step
takes from the ports. -/

namespace Sys2Proof

open Sys2Proof.Machine Sys2Proof.Safety

/-! ## A pair read after a write -/

namespace Machine

/-- R54: a pair reads back what was written to it. -/
@[simp] theorem Cells.getPair_setPair (S : Cells) (p : Pair) (v : Word16) : (S.setPair p v).getPair p = v := by
  rw [Cells.getPair, Cells.get_setPair_hi, Cells.get_setPair_lo, highByte_append_lowByte]

/-- R55: a write to the high cell keeps the low half of the pair. -/
theorem Cells.getPair_set_hi (S : Cells) (p : Pair) (v : Byte) :
    (S.set (pairHi p) v).getPair p = v ++ S.get (pairLo p) := by
  rw [Cells.getPair, Cells.get_set_same, Cells.get_set_of_ne S v (pairHi_ne_pairLo p).symm]

/-- R55: a write to the low cell keeps the high half of the pair. -/
theorem Cells.getPair_set_lo (S : Cells) (p : Pair) (v : Byte) :
    (S.set (pairLo p) v).getPair p = S.get (pairHi p) ++ v := by
  rw [Cells.getPair, Cells.get_set_same, Cells.get_set_of_ne S v (pairHi_ne_pairLo p)]

end Machine

/-- Settles O20: RD16 and RD8 leave the cells as WR16 left them, and those are read whole and by halves. -/
theorem pairRoundTrip : Obligations.PairRoundTrip := by
  refine ⟨fun p x y s => ?_, fun p x s => ⟨_, _, exec_wr16 p x s, exec_rd16 p _, Cells.getPair_setPair s.cells p x⟩⟩
  rw [pairByShift_eq_append, pairCells_fst, pairCells_snd]
  refine ⟨_, _, _, _, exec_wr16 p (x ++ y) s, exec_rd16 p _, exec_rd8 _ _, exec_rd8 _ _,
    Cells.getPair_setPair s.cells p _, ?_, ?_⟩
  · simp only [State.drive_rdata, State.drive_cells, State.writePair_cells, Cells.get_setPair_hi, highByte_append]
  · simp only [State.drive_rdata, State.drive_cells, State.writePair_cells, Cells.get_setPair_lo, lowByte_append]

/-- Settles O21: `PairValue` by shifting is the concatenation of the two cells, one of them written or neither. -/
theorem bytePairConsistency : Obligations.BytePairConsistency := by
  refine ⟨fun p s => ?_, fun p v s => ?_⟩
  · rw [pairCells_fst, pairCells_snd]
    exact ⟨_, _, _, exec_rd16 p s, exec_rd8 _ s, exec_rd8 _ s, (pairByShift_eq_append _ _).symm⟩
  · simp only [pairCells_fst, pairCells_snd, pairByShift_eq_append]
    exact ⟨_, _, _, _, exec_wr8 _ v s, exec_rd16 p _, Cells.getPair_set_hi s.cells p v,
      exec_wr8 _ v s, exec_rd16 p _, Cells.getPair_set_lo s.cells p v⟩

/-! ## The frame of every command -/

/-- Settles O22: the command completes by `exec_next`, and its next state keeps the cells that it does not name. -/
theorem commandsChangeOnlyNamedCells : Obligations.CommandsChangeOnlyNamedCells := by
  intro i s
  obtain ⟨t, hexec, -⟩ := exec_next i s
  exact ⟨t, hexec, fun _ => exec_keeps_unwritten_cell hexec⟩

/-! ## Single commands -/

/-- Settles O8. -/
theorem nopIsIdle : Obligations.NopIsIdle := ⟨decode_nopWord, exec_nop⟩

/-- The high byte of a pair value, zero-extended. -/
theorem append_ushiftRight_8 (x y : Byte) : (x ++ y) >>> 8 = x.setWidth 16 := by
  apply BitVec.eq_of_getLsbD_eq
  intro i hi
  rw [BitVec.getLsbD_ushiftRight, BitVec.getLsbD_append, BitVec.getLsbD_setWidth, if_neg (by omega),
    Nat.add_sub_cancel_left, decide_eq_true hi, Bool.true_and]

/-- Settles O9: the upper bits are the 0x00 of the zero extension, and RD16 gives the two cells concatenated. -/
theorem rd8ReadsOneCell : Obligations.Rd8ReadsOneCell := by
  refine ⟨decode_rd8Word, fun r s => ⟨_, exec_rd8 r s, rfl, ?_⟩, fun p s => ?_⟩
  · rw [State.drive_rdata, setWidth_byte_eq_append]
    exact highByte_append 0x00#8 _
  · rw [pairCells_fst, pairCells_snd]
    exact ⟨_, _, _, exec_rd16 p s, exec_rd8 _ s, exec_rd8 _ s, (append_ushiftRight_8 _ _).symm,
      (append_and_FF _ _).symm⟩

/-- Settles O10. -/
theorem wr8WritesOneCell : Obligations.Wr8WritesOneCell :=
  ⟨decode_wr8Word, fun r v s => ⟨_, exec_wr8 r v s, Cells.get_set_same s.cells r v,
    fun _ hq => Cells.get_set_of_ne s.cells v hq, rfl, rfl, rfl⟩⟩

/-- Settles O15. -/
theorem reservedWordActsAsNop : Obligations.ReservedWordActsAsNop :=
  ⟨fun _ => decode_of_isReservedWord, fun w s => ⟨exec_reserved w s, (exec_reserved w s).trans (exec_nop s).symm⟩⟩

/-! ## What a step takes from the ports -/

/-- Settles O28. -/
theorem stepRunsDecodedCommand : Obligations.StepRunsDecodedCommand := by
  intro s w rest hinputs
  rw [step_of_cons hinputs, runInput_command]

/-- The idle word on the port is a NOP word (R48). -/
theorem runInput_idleInput (s : State) : runInput idleInput s = .next (s.drive 0x0000#16) := by
  have hdecode : decode 0x000000#24 = .nop := decode_nopWord 0x0000#16
  rw [idleInput, runInput_command, hdecode, exec_nop]

theorem step_of_nil {s : State} (h : s.inputs = []) : step s = runInput idleInput s := by
  rw [step, s.nextInput_of_nil h, s.consumeInput_of_nil h]

/-- Settles O29. -/
theorem nothingIssuedIsIdle : Obligations.NothingIssuedIsIdle :=
  fun s hinputs => (step_of_nil hinputs).trans (runInput_idleInput s)

end Sys2Proof

/-! # The flags codec

`FlagsEncode` and `FlagsDecode` are described bit by bit and then composed (R62). ENC and DEC drive their results
zero-extended, so the operand that a caller takes from the output of one is the whole result. -/

namespace Sys2Proof

open Sys2Proof.Machine Sys2Proof.Safety

/-! ## The two functions, and one after the other -/

/-- R59, bit by bit. -/
theorem getLsbD_flagsDecode (b : Byte) (i : Nat) :
    (flagsDecode b).getLsbD i = (decide (i < 4) && b.getLsbD (4 + i)) :=
  BitVec.getLsbD_extractLsb' 4 4 b i

/-- R62: every flag set comes back. -/
@[simp] theorem flagsDecode_flagsEncode (f : Flags4) : flagsDecode (flagsEncode f) = f :=
  BitVec.extractLsb'_append_eq_left

/-- R62: the low nibble of a byte is lost and comes back as zeros. -/
theorem flagsEncode_flagsDecode (b : Byte) : flagsEncode (flagsDecode b) = b &&& 0xF0#8 := by
  apply BitVec.eq_of_getLsbD_eq
  intro i hi
  rw [getLsbD_flagsEncode, getLsbD_flagsDecode]
  interval_cases i <;> simp

/-- A byte whose low nibble is clear is its own high nibble. -/
theorem and_F0_of_and_0F {b : Byte} (hclear : b &&& 0x0F#8 = 0x00#8) : b &&& 0xF0#8 = b :=
  calc b &&& 0xF0#8 = (b &&& 0xF0#8) ||| (b &&& 0x0F#8) := by rw [hclear, BitVec.or_zero]
    _ = b &&& (0xF0#8 ||| 0x0F#8) := BitVec.and_or_distrib_left.symm
    _ = b := BitVec.and_allOnes

/-- Settles O17: `FlagsEncode` concatenates the flags in the table's order, and `getLsbD_flagsDecode` names the bits that
`FlagsDecode` reads. -/
theorem flagBitPositions : Obligations.FlagBitPositions := by
  refine ⟨fun _ _ _ _ => rfl, fun b => ?_⟩
  simp only [setOfFlags4, getLsbD_flagsDecode]
  rfl

/-! ## The outputs of ENC and DEC -/

/-- R58: the packed byte by shifting. -/
theorem setWidth_flagsEncode (f : Flags4) : (flagsEncode f).setWidth 16 = f.setWidth 16 <<< 4 := by
  apply BitVec.eq_of_getLsbD_eq
  intro i hi
  rw [BitVec.getLsbD_setWidth, getLsbD_flagsEncode]
  interval_cases i <;> simp

/-- R59: the unpacked flags by shifting. -/
theorem setWidth_flagsDecode (b : Byte) : (flagsDecode b).setWidth 16 = (b >>> 4).setWidth 16 := by
  apply BitVec.eq_of_getLsbD_eq
  intro i hi
  rw [BitVec.getLsbD_setWidth, getLsbD_flagsDecode]
  interval_cases i <;> simp

/-- R57: flag `i` stands in bit `i + 4` of ENC's output. -/
theorem getLsbD_setWidth_flagsEncode (f : Flags4) {i : Nat} (hi : i < 4) :
    ((flagsEncode f).setWidth 16).getLsbD (i + 4) = f.getLsbD i := by
  rw [BitVec.getLsbD_setWidth, getLsbD_flagsEncode, decide_eq_true (by omega), decide_eq_true (by omega),
    Bool.true_and, Bool.true_and, Nat.add_sub_cancel]

/-- R57: bit `4 + i` of the byte stands in bit `i` of DEC's output. -/
theorem getLsbD_setWidth_flagsDecode (b : Byte) {i : Nat} (hi : i < 4) :
    ((flagsDecode b).setWidth 16).getLsbD i = b.getLsbD (4 + i) := by
  rw [BitVec.getLsbD_setWidth, getLsbD_flagsDecode, decide_eq_true (by omega), decide_eq_true hi, Bool.true_and,
    Bool.true_and]

/-- Settles O13: the flags stand above the nibble 0000, and the zero extension above them. -/
theorem encPacksFlags : Obligations.EncPacksFlags := by
  refine ⟨decode_encWord, fun f s => ⟨_, exec_enc f s, ?_, getLsbD_setWidth_flagsEncode f (i := 3) (by decide),
    getLsbD_setWidth_flagsEncode f (i := 2) (by decide), getLsbD_setWidth_flagsEncode f (i := 1) (by decide),
    getLsbD_setWidth_flagsEncode f (i := 0) (by decide), ?_, ?_⟩⟩
  · rw [setWidth_flagsEncode]
    rfl
  · rw [State.drive_rdata, BitVec.extractLsb'_setWidth_of_le (by decide), flagsEncode]
    exact BitVec.extractLsb'_append_eq_right
  · rw [State.drive_rdata, setWidth_byte_eq_append]
    exact BitVec.extractLsb'_append_eq_left

/-- Settles O14: the flags stand in the low nibble, and the zero extension above them. -/
theorem decUnpacksByte : Obligations.DecUnpacksByte := by
  refine ⟨decode_decWord, fun b s => ⟨_, exec_dec b s, ?_, getLsbD_setWidth_flagsDecode b (i := 3) (by decide),
    getLsbD_setWidth_flagsDecode b (i := 2) (by decide), getLsbD_setWidth_flagsDecode b (i := 1) (by decide),
    getLsbD_setWidth_flagsDecode b (i := 0) (by decide), ?_⟩⟩
  · rw [setWidth_flagsDecode]
    rfl
  · rw [State.drive_rdata, setWidth_flags_eq_append]
    exact BitVec.extractLsb'_append_eq_left

/-! ## One command after the other -/

/-- R62: a byte that went through the codec has no low nibble left, zero-extended or not. -/
theorem setWidth_and_F0_and_F (b : Byte) : (b &&& 0xF0#8).setWidth 16 &&& 0x000F#16 = 0x0000#16 :=
  calc (b &&& 0xF0#8).setWidth 16 &&& 0x000F#16
    _ = (b &&& 0xF0#8).setWidth 16 &&& (0x0F#8).setWidth 16 := rfl
    _ = (b &&& 0xF0#8 &&& 0x0F#8).setWidth 16 := BitVec.setWidth_and.symm
    _ = (b &&& (0xF0#8 &&& 0x0F#8)).setWidth 16 := by rw [BitVec.and_assoc]
    _ = (0x00#8).setWidth 16 := congrArg _ BitVec.and_zero

/-- Settles O18: each command is given the whole result of the other. -/
theorem codecRoundTrips : Obligations.CodecRoundTrips := by
  refine ⟨fun f s => ⟨_, _, exec_enc f s, exec_dec _ _, ?_⟩, fun b s => ⟨_, _, exec_dec b s, exec_enc _ _, ?_⟩⟩
  · rw [State.drive_rdata, State.drive_rdata, extractLsb'_setWidth_16 (by decide), flagsDecode_flagsEncode]
  · rw [State.drive_rdata, State.drive_rdata, extractLsb'_setWidth_16 (by decide), flagsEncode_flagsDecode]
    exact ⟨rfl, setWidth_and_F0_and_F b, fun hclear => by rw [and_F0_of_and_0F hclear]⟩

/-- Settles O19: by `exec_drive` the next command does not see the output that the codec drove. -/
theorem codecIsStateless : Obligations.CodecIsStateless :=
  ⟨fun f s s' => ⟨_, _, exec_enc f s, exec_enc f s', rfl, rfl, fun i => exec_drive i s _⟩,
    fun b s s' => ⟨_, _, exec_dec b s, exec_dec b s', rfl, rfl, fun i => exec_drive i s _⟩⟩

/-- Settles O41: DEC is given the whole of F, and `codecRoundTrips` gives back a byte whose low nibble is clear. -/
theorem clearFlagsSurviveCodec : Obligations.ClearFlagsSurviveCodec := by
  intro s hcaller
  obtain ⟨hclear, -⟩ := hcaller
  have hF : (s.drive ((s.cells.get .f).setWidth 16)).rdata.extractLsb' 0 8 = s.cells.get .f :=
    extractLsb'_setWidth_16 (by decide) (s.cells.get .f)
  obtain ⟨u, v, hdec, henc, -, -, hwhole⟩ :=
    codecRoundTrips.2 (s.cells.get .f) (s.drive ((s.cells.get .f).setWidth 16))
  exact ⟨_, u, v, exec_rd8 .f s, by rw [hF, hdec], henc, hwhole hclear⟩

end Sys2Proof

/-! # No exceptions

The block raises no exception and refuses no command (R64). -/

namespace Sys2Proof

open Sys2Proof.Machine

/-- Settles O30: `step_cases` names the next state, an idle step and a reset step included. -/
theorem everyStepReturnsNextState : Obligations.EveryStepReturnsNextState := by
  intro s
  obtain ⟨S, v, hstep⟩ := step_cases s
  exact ⟨_, hstep⟩

end Sys2Proof

/-! # Reset, later writes, and the caller's obligation on F

Every step leaves in each cell what the input it takes writes there, or what stood there before (`step_next`); a run
leaves what its last write leaves (`cellAfterWrites_append_some`). -/

namespace Sys2Proof

open Sys2Proof.Machine Sys2Proof.Safety

/-! ## The last write into a cell -/

/-- The writes before the last one leave no trace. -/
theorem cellAfterWrites_append_some (u v : Byte) (before : List (Option Byte)) {after : List (Option Byte)}
    (hafter : ∀ w ∈ after, w = none) : cellAfterWrites u (before ++ some v :: after) = v := by
  rw [cellAfterWrites, List.foldl_append, List.foldl_cons, Option.getD_some]
  exact cellAfterWrites_of_forall_none v after hafter

/-- Settles O35: by `run_next` the cell holds what the list of writes into it leaves, and `v` is the last of them. -/
theorem laterWriteWins : Obligations.LaterWriteWins := by
  intro s before after rest x r v hinputs hx hafter
  obtain ⟨t, hrun, -, -, hcells⟩ := run_next (before ++ x :: after) rest s hinputs
  have hlength : (before ++ x :: after).length = before.length + 1 + after.length := by
    rw [List.length_append, List.length_cons, Nat.add_right_comm, Nat.add_assoc]
  refine ⟨t, hlength ▸ hrun, ?_⟩
  rw [hcells, List.map_append, List.map_cons, hx]
  exact cellAfterWrites_append_some _ v _ (List.forall_mem_map.2 hafter)

/-! ## The caller's obligation on F -/

/-- One step of the machine, cell by cell. -/
theorem step_next (s : State) :
    ∃ t, step s = .next t ∧ t.resetImage = s.resetImage ∧ t.inputs = s.inputs.tail ∧
      ∀ q, t.cells.get q = (inputWrites s.resetImage q s.nextInput).getD (s.cells.get q) :=
  runInput_next s.nextInput s.consumeInput

/-- R48: an idle port writes nothing. -/
theorem inputWrites_idleInput (image : Cells) (q : Reg) : inputWrites image q idleInput = none :=
  inputWrites_eq_none_of_not_isWriter (by decide) image q

/-- What the step about to be taken writes, an input that the caller presents writes. -/
theorem nextInput_mem_of_writes {s : State} {image : Cells} {q : Reg} {v : Byte}
    (hwrites : inputWrites image q s.nextInput = some v) : s.nextInput ∈ s.inputs := by
  cases hinputs : s.inputs with
  | nil =>
    rw [s.nextInput_of_nil hinputs, inputWrites_idleInput] at hwrites
    exact absurd hwrites (Option.some_ne_none v).symm
  | cons x rest =>
    rw [s.nextInput_of_cons hinputs]
    exact List.mem_cons_self

/-- Settles O39: F keeps its value or takes the one that an input still to come writes, and both have a clear low nibble;
the inputs that remain were to come before. -/
theorem lowNibbleStaysClear : Obligations.LowNibbleStaysClear := by
  intro s t ⟨hclear, hcaller⟩ hstep
  obtain ⟨t', hstep', himage, hinputs, hcells⟩ := step_next s
  obtain rfl := Host.Outcome.next.inj (hstep'.symm.trans hstep)
  refine ⟨?_, fun x hx => ?_⟩
  · show t'.cells.get .f &&& 0x0F#8 = 0x00#8
    rw [hcells]
    cases hwrites : inputWrites s.resetImage .f s.nextInput with
    | none => exact hclear
    | some v => exact hcaller _ (nextInput_mem_of_writes hwrites) v hwrites
  · rw [hinputs] at hx
    rw [himage]
    exact hcaller x (List.mem_of_mem_tail hx)

/-! ## Reset -/

/-- R20: no command writes more than the two cells of a pair. -/
theorem length_cellsWritten_le_two (i : Instr) : (cellsWritten i).length ≤ 2 := by
  cases i with
  | wr16 _ _ => exact Nat.le_refl 2
  | wr8 _ _ => exact Nat.le_succ 1
  | nop | rd8 _ | rd16 _ | enc _ | dec _ | reserved _ => exact Nat.zero_le 2

/-- Settles O26: the reset step's fields, and the frame of every command with the bound on the cells that it writes. -/
theorem resetWinsOverCommand : Obligations.ResetWinsOverCommand := by
  refine ⟨fun w s => ⟨_, runInput_reset w s, fun _ => rfl, rfl⟩, fun i s => ?_⟩
  obtain ⟨t, hexec, hframe⟩ := commandsChangeOnlyNamedCells i s
  exact ⟨t, hexec, length_cellsWritten_le_two i, hframe⟩

/-- Settles O47. -/
theorem stepTakesResetInput : Obligations.StepTakesResetInput := by
  intro s w rest hinputs
  rw [step_of_cons hinputs, runInput_reset, State.resetStep, noReadData]

end Sys2Proof
